-- ==== Sys2Proof/Word.lean ====
section
/-! DEFINITION. The hardware's value types: bytes, pixels, tokens, runs and the carrier grid, with the plain
channel arithmetic of pixels (00_scope.md R7, R11, R12; 10_state.md R31 to R34). -/

namespace Sys2Proof

/-- An unsigned 8-bit value: a pixel channel, a tape cell, an input or an output item (R7). Its `+` and `-` are
the arithmetic modulo 256 of R11. -/
abbrev Byte := BitVec 8

/-- A pixel, or a reduced delta: four bytes in the channel order `(r, g, b, a)` (R12, R31, R64). -/
structure Pixel where
  r : Byte
  g : Byte
  b : Byte
  a : Byte
  deriving DecidableEq, Repr

/-- `ZERO4`, the reserved zero delta (R12, R95). -/
def Pixel.zero : Pixel := ⟨0, 0, 0, 0⟩

/-- `p ⊕ d` (R12): every channel on its own, no carry between channels (R64). -/
def Pixel.add (p d : Pixel) : Pixel := ⟨p.r + d.r, p.g + d.g, p.b + d.b, p.a + d.a⟩

/-- `p ⊖ q` (R12): every channel on its own, no borrow between channels (R64). -/
def Pixel.sub (p q : Pixel) : Pixel := ⟨p.r - q.r, p.g - q.g, p.b - q.b, p.a - q.a⟩

/-- The nine instructions of the alphabet, which the token interface and the program store hold (R32, R90). -/
inductive Token where
  | moveRight
  | moveLeft
  | increment
  | decrement
  | output
  | input
  | loopOpen
  | loopClose
  | endOfProgram
  deriving DecidableEq, Repr

/-- The alphabet in the source's order (R90). -/
def Token.all : List Token :=
  [.moveRight, .moveLeft, .increment, .decrement, .output, .input, .loopOpen, .loopClose, .endOfProgram]

/-- An encoded run `(t, c)` (R33). -/
structure EncodedRun where
  token : Token
  count : Nat
  deriving DecidableEq, Repr

/-- The carrier: a grid of `w` columns and `h` rows, seen as the row-major sequence of its pixels (R34, R60). -/
structure Carrier where
  w : Nat
  h : Nat
  pix : List Pixel
  deriving DecidableEq, Repr

end Sys2Proof
end

