-- ==== Sys2Proof/Config.lean ====
section
/-! DEFINITION. The configuration record CFG: the parameters of 00_scope.md R8, fixed by the HOST for the length of
an operation (10_state.md R30). It is plain data, so that State can hold the record an operation runs with. The spec
leaves no value open, so there is no free value here. -/

namespace Sys2Proof

/-- A delta vector: "four signed integers (dr, dg, db, da)" (R93). -/
structure DeltaVector where
  dr : Int
  dg : Int
  db : Int
  da : Int
  deriving DecidableEq, Repr

/-- `DELTA_TABLE`: a delta vector for each of the nine instructions (R8, R94). -/
structure DeltaTable where
  moveRight : DeltaVector
  moveLeft : DeltaVector
  increment : DeltaVector
  decrement : DeltaVector
  output : DeltaVector
  input : DeltaVector
  loopOpen : DeltaVector
  loopClose : DeltaVector
  endOfProgram : DeltaVector
  deriving DecidableEq, Repr

/-- `DT(t)` (R94). -/
def DeltaTable.entry (dt : DeltaTable) : Token → DeltaVector
  | .moveRight => dt.moveRight
  | .moveLeft => dt.moveLeft
  | .increment => dt.increment
  | .decrement => dt.decrement
  | .output => dt.output
  | .input => dt.input
  | .loopOpen => dt.loopOpen
  | .loopClose => dt.loopClose
  | .endOfProgram => dt.endOfProgram

/-- `UNDERFLOW_POLICY` (R8, R201). -/
inductive UnderflowPolicy where
  | fault
  | clamp
  deriving DecidableEq, Repr

/-- `EOF_POLICY` (R8, R221). -/
inductive EofPolicy where
  | zero
  | unchanged
  | terminate
  deriving DecidableEq, Repr

/-- `CFG` (R8, R30). -/
structure Config where
  deltaTable : DeltaTable
  sentinel : Pixel
  origin : Nat
  underflowPolicy : UnderflowPolicy
  eofPolicy : EofPolicy
  stepLimit : Option Nat
  tapeCells : Option Nat
  deriving DecidableEq, Repr

end Sys2Proof
end

