-- ==== Sys2Proof/Syntax.lean ====
section
/-! DEFINITION. The syntax: one constructor per row of spec/opcode_table.json (30_encoding.md R90, R102). The nine
instructions have no operands, modifiers or mode bits (R90, R101). The tenth row is the continuation marker: "not an
instruction", a pixel delta that stands for the previous pixel's instruction once more (R95, R134). -/

namespace Sys2Proof

/-- What one pixel delta stands for: one of the nine instructions, or the continuation marker (R98, R102). -/
inductive Instr where
  | moveRight
  | moveLeft
  | increment
  | decrement
  | output
  | input
  | loopOpen
  | loopClose
  | endOfProgram
  | continuation
  deriving DecidableEq, Repr

end Sys2Proof
end

