-- ==== Sys2Proof/Decode.lean ====
section
/-! DEFINITION. Decoding and encoding: the pixel delta under any delta table (30_encoding.md R93 to R98), the packed
word of the opcode table (R97, R102), the 4-bit token codes (R92), the default table DT0 (R96) and the default
configuration (00_scope.md R8). Every rejection has a name (R100). -/

namespace Sys2Proof

/-- Why bits are no encoding. -/
inductive Reject where
  /-- A nonzero delta that is no entry of the delta table (R98, R100). -/
  | unknownDelta (d : Pixel)
  /-- A token code `0x9` to `0xF` (R92, R100). -/
  | reservedTokenCode (c : BitVec 4)
  deriving DecidableEq, Repr

/-- `red(v)` of one signed component: `v mod 256` (R11). -/
def red (v : Int) : Byte := BitVec.ofInt 8 v

/-- The reduction of a delta vector, channel by channel (R93). -/
def DeltaVector.reduce (v : DeltaVector) : Pixel := ⟨red v.dr, red v.dg, red v.db, red v.da⟩

/-- `vectorFor(t)` (40_codec.md R122). -/
def DeltaTable.vectorFor (dt : DeltaTable) (t : Token) : Pixel := (dt.entry t).reduce

/-- `instructionFor(D)`, `none` for `NotFound` (40_codec.md R132). -/
def DeltaTable.instructionFor (dt : DeltaTable) (d : Pixel) : Option Token :=
  Token.all.find? fun t => decide (dt.vectorFor t = d)

/-- The instruction of a token. -/
def Token.toInstr : Token → Instr
  | .moveRight => .moveRight
  | .moveLeft => .moveLeft
  | .increment => .increment
  | .decrement => .decrement
  | .output => .output
  | .input => .input
  | .loopOpen => .loopOpen
  | .loopClose => .loopClose
  | .endOfProgram => .endOfProgram

/-- The token of an instruction; the continuation marker has none (R95: "It is not an instruction"). -/
def Instr.token? : Instr → Option Token
  | .moveRight => some .moveRight
  | .moveLeft => some .moveLeft
  | .increment => some .increment
  | .decrement => some .decrement
  | .output => some .output
  | .input => some .input
  | .loopOpen => some .loopOpen
  | .loopClose => some .loopClose
  | .endOfProgram => some .endOfProgram
  | .continuation => none

/-- The stackable subset (R91). -/
def Token.stackable : Token → Bool
  | .moveRight => true
  | .moveLeft => true
  | .increment => true
  | .decrement => true
  | .output => false
  | .input => false
  | .loopOpen => false
  | .loopClose => false
  | .endOfProgram => false

/-- Decoding a pixel delta by exact match of all four bytes (R98). -/
def decodeDelta (dt : DeltaTable) (d : Pixel) : Except Reject Instr :=
  if d = Pixel.zero then .ok .continuation
  else
    match dt.instructionFor d with
    | some t => .ok t.toInstr
    | none => .error (.unknownDelta d)

/-- The token of a 4-bit code, the reserved codes refused by name (R92, R100). -/
def Token.ofCode (c : BitVec 4) : Except Reject Token :=
  match Token.all[c.toNat]? with
  | some t => .ok t
  | none => .error (.reservedTokenCode c)

/-- The default table DT0 (R96). -/
def DeltaTable.dt0 : DeltaTable where
  moveRight := ⟨8, 0, 0, 0⟩
  moveLeft := ⟨-8, 0, 0, 0⟩
  increment := ⟨0, 8, 0, 0⟩
  decrement := ⟨0, -8, 0, 0⟩
  output := ⟨0, 0, 8, 0⟩
  input := ⟨0, 0, -8, 0⟩
  loopOpen := ⟨8, 0, 8, 0⟩
  loopClose := ⟨-8, 0, -8, 0⟩
  endOfProgram := ⟨8, 8, 8, 0⟩

/-- The value of every parameter when the model is not told otherwise (00_scope.md R8). -/
def Config.default : Config where
  deltaTable := DeltaTable.dt0
  sentinel := Pixel.zero
  origin := 0
  underflowPolicy := .fault
  eofPolicy := .zero
  stepLimit := none
  tapeCells := none

/-- The packed word of a pixel or delta: r in bits 31..24, g in 23..16, b in 15..8, a in 7..0 (R97). -/
def Pixel.pack (p : Pixel) : BitVec 32 := p.r ++ p.g ++ p.b ++ p.a

/-- The pixel or delta of a packed word (R97). -/
def Pixel.unpack (w : BitVec 32) : Pixel :=
  ⟨w.extractLsb' 24 8, w.extractLsb' 16 8, w.extractLsb' 8 8, w.extractLsb' 0 8⟩

/-- Decoding a packed delta word (R97, R98). -/
def decodeWord (dt : DeltaTable) (w : BitVec 32) : Except Reject Instr := decodeDelta dt (Pixel.unpack w)

/-- The instruction the decoder reads from a word as spec/opcode_table.json numbers its bits: the table's one word of 32
bits, under DT0 as the table shows it (R102). R97 and R98 know only the 32-bit word. DESIGN CHOICE (log 11): a word shorter
than 32 bits is read as the 32-bit word whose bits above `nbits` are 0. DEDUCED (log 11): a longer word is no encoding. -/
def decodeTableWord (nbits w : Nat) : Option Instr :=
  if nbits ≤ 32 then
    match decodeWord DeltaTable.dt0 (BitVec.ofNat 32 (w % 2 ^ nbits)) with
    | .ok i => some i
    | .error _ => none
  else none

/-- The encoder: the delta of an instruction, `ZERO4` for the continuation marker (R95, R98, R102). -/
def encodeDelta (dt : DeltaTable) (i : Instr) : Pixel :=
  match i.token? with
  | some t => dt.vectorFor t
  | none => Pixel.zero

/-- The packed delta word of an instruction (R97, R102). -/
def encodeWord (dt : DeltaTable) (i : Instr) : BitVec 32 := (encodeDelta dt i).pack

/-- The 4-bit token code (R92). -/
def Token.code : Token → BitVec 4
  | .moveRight => 0x0
  | .moveLeft => 0x1
  | .increment => 0x2
  | .decrement => 0x3
  | .output => 0x4
  | .input => 0x5
  | .loopOpen => 0x6
  | .loopClose => 0x7
  | .endOfProgram => 0x8

end Sys2Proof
end

