-- ==== Sys2Proof/WellFormed.lean ====
section
/-! DEFINITION. Well-formedness checks, each a Bool. An instruction has no operands, so every `Instr` is a well-formed
pixel delta (30_encoding.md R101); what can be ill-formed is a delta table (R94), a configuration (00_scope.md R8),
a run (10_state.md R33), a token sequence given to the ENCODER or held in the program store (40_codec.md R124,
10_state.md R38) and a carrier (10_state.md R34). -/

namespace Sys2Proof

/-- R94, condition 1: no instruction has the reserved zero vector. -/
def DeltaTable.noZero (dt : DeltaTable) : Bool :=
  Token.all.all fun t => decide (dt.vectorFor t ≠ Pixel.zero)

/-- R94, condition 2: no two instructions share a reduced vector. -/
def DeltaTable.distinct (dt : DeltaTable) : Bool :=
  Token.all.all fun t => Token.all.all fun u => decide (t ≠ u → dt.vectorFor t ≠ dt.vectorFor u)

/-- R94. -/
def DeltaTable.wf (dt : DeltaTable) : Bool := dt.noZero && dt.distinct

/-- A configuration the model runs with (R8): the table is well formed, and a bounded tape has a cell
("`none` (unbounded) or `some N` with `N >= 1`"). -/
def Config.wf (cfg : Config) : Bool := cfg.deltaTable.wf && decide (cfg.tapeCells ≠ some 0)

/-- R33: the repeat count is at least 1, and exactly 1 for an instruction that is not stackable. -/
def EncodedRun.wf (r : EncodedRun) : Bool := decide (1 ≤ r.count) && (r.token.stackable || decide (r.count = 1))

/-- R124, R38: there is an `EndOfProgram`, and the first one stands at the last place. -/
def validTokens (ts : List Token) : Bool :=
  decide (ts.findIdx (fun t => decide (t = .endOfProgram)) + 1 = ts.length)

/-- R34, R285: the grid has `W * H` pixels. -/
def Carrier.wf (c : Carrier) : Bool := decide (c.pix.length = c.w * c.h)

end Sys2Proof
end

