-- ==== Sys2Proof/Machine/State.lean ====
section
/-! DEFINITION. The state: every piece of state the spec gives the machine (10_state.md R30 to R47,
70_reset_and_hazards.md R281), the HOST's side that a step reads, the state after reset, and the reasons a step can
stop. Plain data throughout. -/

namespace Sys2Proof.Machine

/-- Why a carrier is a corrupt stream (60_exceptions.md R252). -/
inductive CorruptReason where
  | unknownDelta (d : Pixel)
  | leadingContinuation
  | truncated
  deriving DecidableEq, Repr

/-- The seven error kinds, each with the information it records (60_exceptions.md R250 to R252). -/
inductive Err where
  | insufficientCapacity (required available : Nat)
  | corruptStream (reason : CorruptReason) (k index : Nat)
  | unmatchedBracket (pos : Nat)
  | tapeUnderflow (ip : Nat)
  | stepLimitExceeded (ip steps : Nat)
  | invalidTokenStream (index : Nat)
  | tapeOverflow (ip dp : Nat)
  deriving DecidableEq, Repr

/-- The `status` register (10_state.md R39). -/
inductive Status where
  | running
  | halted
  | faulted (e : Err)
  deriving DecidableEq, Repr

/-- Which agent is active; no two are at once (00_scope.md R6). `host` means that no operation is in progress. -/
inductive Agent where
  | host
  | encoder
  | decoder
  | loader
  | engine
  deriving DecidableEq, Repr

/-- A partial map from instruction indices to instruction indices (10_state.md R38), as (index, partner) pairs with
strictly rising indices. -/
abbrev JumpTable := List (Nat × Nat)

/-- The tape's contents (10_state.md R40): (index, byte) pairs, strictly rising, none of them 0; an unlisted cell
reads 0. -/
abbrev Memory := List Host.Cell

/-- The ENCODER's working state (10_state.md R35) with its request's token sequence (40_codec.md R120). -/
structure EncoderWork where
  input : List Token
  runs : List EncodedRun
  prev : Pixel
  k : Nat
  deriving DecidableEq, Repr

/-- The DECODER's working state (10_state.md R36). -/
structure DecoderWork where
  prev : Pixel
  prevT : Option Token
  k : Nat
  toks : List Token
  deriving DecidableEq, Repr

/-- The LOADER's working state (10_state.md R37) with its request's token sequence (41_loader.md R161) and the scan
index (R162). The stack's top is the list's head. -/
structure LoaderWork where
  input : List Token
  index : Nat
  stack : List Nat
  jt : JumpTable
  deriving DecidableEq, Repr

/-- The working states between operations. -/
def EncoderWork.idle : EncoderWork := ⟨[], [], Pixel.zero, 0⟩

/-- See `EncoderWork.idle`. -/
def DecoderWork.idle : DecoderWork := ⟨Pixel.zero, none, 0, []⟩

/-- See `EncoderWork.idle`. -/
def LoaderWork.idle : LoaderWork := ⟨[], 0, [], []⟩

/-- A HOST action on the input source (10_state.md R44). -/
inductive Arrival where
  | byte (b : Byte)
  | close
  deriving DecidableEq, Repr

/-- An operation the HOST requests (70_reset_and_hazards.md R284), with the inputs it supplies (00_scope.md R9). The
carrier `none` is the buffer as the machine holds it, mutated in place by the last inject (log 13). -/
inductive Operation where
  | inject (cfg : Config) (tokens : List Token) (carrier : Option Carrier)
  | run (cfg : Config) (carrier : Option Carrier) (input : List Byte) (closed : Bool) (arrivals : List Arrival)
  deriving DecidableEq, Repr

/-- What an operation returns to the HOST (40_codec.md R120, 70_reset_and_hazards.md R284). `runFailed`: the DECODER or
the LOADER failed and the ENGINE never started (60_exceptions.md R253). -/
inductive Response where
  | injected
  | injectFailed (e : Err)
  | runFailed (e : Err)
  | ran (status : Status) (out : List Byte)
  deriving DecidableEq, Repr

/-- The machine's state. -/
structure State where
  /-- `CFG` (R30). -/
  cfg : Config
  /-- The active agent (R6). -/
  active : Agent
  /-- The carrier buffer (R34). -/
  carrier : Carrier
  /-- ENCODER working state (R35). -/
  encoder : EncoderWork
  /-- DECODER working state (R36). -/
  decoder : DecoderWork
  /-- LOADER working state (R37). -/
  loader : LoaderWork
  /-- `Prog` (R38). -/
  prog : List Token
  /-- `JT` (R38). -/
  jt : JumpTable
  /-- Instruction pointer (R39). -/
  ip : Nat
  /-- Data pointer (R39). -/
  dp : Nat
  /-- The tape (R40). -/
  tape : Memory
  /-- `IN` (R44). -/
  input : List Byte
  /-- `closed` (R44). -/
  closed : Bool
  /-- `in_cursor` (R39). -/
  inCursor : Nat
  /-- `out` (R39, R45). -/
  out : List Byte
  /-- `steps` (R39, R263). -/
  steps : Nat
  /-- `status` (R39). -/
  status : Status
  /-- The HOST's requests not yet started (log 5). -/
  pending : List Operation
  /-- The HOST's schedule of input bytes and closing for this run (R190; log 6). -/
  arrivals : List Arrival
  /-- What operations returned, oldest first (log 5). -/
  responses : List Response
  deriving DecidableEq, Repr

/-- Why a step stops without a next state. Each is raised only in states that no run reaches, and is safe: the spec
says the access cannot occur, and the model stops instead of giving it a value (log 9). -/
inductive Fault where
  /-- Raised by the fetch when `ip` is no index of the program store ("The fetch cannot fail", R183, R189). Safe. -/
  | fetchOutsideProgram
  /-- Raised by LoopOpen and LoopClose when they jump and `JT[ip]` is undefined ("always defined here", R230, R231). Safe. -/
  | jumpTargetUndefined
  /-- Raised by an access to the current cell when `TAPE_CELLS = some N` and `dp >= N`: that cell does not exist (R40,
  R62). Safe. -/
  | cellOutsideTape
  deriving DecidableEq, Repr

/-- Why the machine refuses to go on (log 10). -/
inductive Refusal where
  /-- Raised by an arm of exec that has no meaning yet; no arm is left so. Safe. -/
  | notModelled (mnemonic : String)
  /-- Raised by any operation under an ill-formed configuration: "A model must refuse an ill-formed configuration rather
  than run with it" (R8, R94). Safe. -/
  | illFormedConfig
  /-- Raised at the start of an operation whose carrier does not have `W * H` pixels (R34, R285). Safe. -/
  | malformedCarrier
  deriving DecidableEq, Repr

/-- The machine right after reset: the engine's registers and tape as R47 and R281 say, no operation in progress, and
the inputs (which are not reset) at the values log 1 and log 2 name. -/
def State.reset : State where
  cfg := Config.default
  active := .host
  carrier := ⟨0, 0, []⟩
  encoder := EncoderWork.idle
  decoder := DecoderWork.idle
  loader := LoaderWork.idle
  prog := []
  jt := []
  ip := 0
  dp := 0
  tape := []
  input := []
  closed := true
  inCursor := 0
  out := []
  steps := 0
  status := .running
  pending := []
  arrivals := []
  responses := []

end Sys2Proof.Machine
end

