-- ==== Sys2Proof/Machine/Ops.lean ====
section
/-! DEFINITION. The named operations over memories and registers (00_scope.md R14), ending an operation with an error
or a result (60_exceptions.md R251, R253; 42_engine_cycle.md R187, R192), and the engine's reset (70_reset_and_hazards.md
R281). There is no trap entry and no return from a trap (60_exceptions.md R258, R259): raising an error changes
`status` alone. -/

namespace Sys2Proof

/-! ### Carrier access -/

/-- The linear index of column `x` and row `y` (R60). -/
def Carrier.linear (c : Carrier) (x y : Nat) : Nat := y * c.w + x

/-- `PixRead(i)` (R14); `none` at an index the carrier does not have. -/
def Carrier.read (c : Carrier) (i : Nat) : Option Pixel := c.pix[i]?

end Sys2Proof

namespace Sys2Proof.Machine

/-- The outcome of a meaning or a step. -/
abbrev Result := Host.Outcome State Fault Refusal

/-! ### Sparse maps: lists of pairs with strictly rising keys -/

/-- The value at a key. -/
def Sparse.get? {α : Type} : List (Nat × α) → Nat → Option α
  | [], _ => none
  | (k, v) :: rest, a => if k = a then some v else Sparse.get? rest a

/-- The map with the value `v` at the key `a`. -/
def Sparse.put {α : Type} : List (Nat × α) → Nat → α → List (Nat × α)
  | [], a, v => [(a, v)]
  | (k, x) :: rest, a, v =>
    if a < k then (a, v) :: (k, x) :: rest
    else if a = k then (a, v) :: rest
    else (k, x) :: Sparse.put rest a v

/-- The map with nothing at the key `a`. -/
def Sparse.erase {α : Type} (m : List (Nat × α)) (a : Nat) : List (Nat × α) :=
  m.filter fun c => decide (c.1 ≠ a)

/-- The keys rise strictly. -/
abbrev Sparse.rising {α : Type} (m : List (Nat × α)) : Prop := (m.map Prod.fst).Pairwise (· < ·)

/-! ### The tape and the jump table -/

/-- The canonical form of the tape: keys strictly rising, no entry equal to what an unlisted cell reads as. -/
abbrev Memory.wf (m : Memory) : Prop := Sparse.rising m ∧ ∀ c ∈ m, c.2 ≠ 0

/-- What a cell that is not listed reads as: "a cell never written reads 0" (R40). -/
def Memory.unlisted : Byte := 0

/-- `Tape[a]` (R14, R40). -/
def Memory.read (m : Memory) (a : Nat) : Byte := (Sparse.get? m a).getD Memory.unlisted

/-- `Tape[a] <- v` (R14). -/
def Memory.write (m : Memory) (a : Nat) (v : Byte) : Memory :=
  if v = Memory.unlisted then Sparse.erase m a else Sparse.put m a v

/-- `JT[i]`, `none` where the table is undefined (R38). -/
def JumpTable.target (jt : JumpTable) (i : Nat) : Option Nat := Sparse.get? jt i

/-- `JT[j] <- i ; JT[i] <- j` (R162). -/
def JumpTable.pair (jt : JumpTable) (j i : Nat) : JumpTable := Sparse.put (Sparse.put jt j i) i j

/-! ### Engine registers -/

/-- `ip <- ip + 1` (R185). -/
def State.advance (s : State) : State := { s with ip := s.ip + 1 }

/-- `ip <- j` (R185, R230, R231). -/
def State.jump (s : State) (j : Nat) : State := { s with ip := j }

/-- `dp <- d` (R200, R201). -/
def State.moveTo (s : State) (d : Nat) : State := { s with dp := d }

/-- `Tape[dp] <- v` (R14). -/
def State.writeCell (s : State) (v : Byte) : State := { s with tape := Memory.write s.tape s.dp v }

/-- `in_cursor <- in_cursor + 1` (R221). -/
def State.consume (s : State) : State := { s with inCursor := s.inCursor + 1 }

/-- `OutPush(b)` (R14, R220); the sink never refuses a byte (R45). -/
def State.outPush (s : State) (b : Byte) : State := { s with out := s.out ++ [b] }

/-- `steps <- steps + 1` (R186). -/
def State.countStep (s : State) : State := { s with steps := s.steps + 1 }

/-- `halt` (R187): the run has ended successfully. -/
def State.halt (s : State) : State := { s with status := .halted }

/-- `raise e` in the ENGINE: `status <- Faulted(e)` and nothing else (R192). This is all there is to taking an exception
on this hardware (R258). -/
def State.raise (s : State) (e : Err) : State := { s with status := .faulted e }

/-- The cell `dp` exists: every index when the tape is unbounded, else the indices below `N` (R62). -/
def State.cellInRange (s : State) : Bool :=
  match s.cfg.tapeCells with
  | none => true
  | some n => decide (s.dp < n)

/-- The ENGINE's start for a program and its jump table (R47, R180, R281). -/
def State.resetEngine (s : State) (prog : List Token) (jt : JumpTable) : State :=
  { s with
    prog := prog, jt := jt, ip := 0, dp := 0, tape := [], inCursor := 0, out := [], steps := 0, status := .running }

/-! ### The end of an operation -/

/-- The operation in progress returns `r` to the HOST; no working state survives it (R35, R36, R37, R253). -/
def State.finish (s : State) (r : Response) : State :=
  { s with
    active := .host, encoder := EncoderWork.idle, decoder := DecoderWork.idle, loader := LoaderWork.idle,
    responses := s.responses ++ [r] }

/-- The code of an error kind (R251). -/
def Err.code : Err → Nat
  | .insufficientCapacity _ _ => 1
  | .corruptStream _ _ _ => 2
  | .unmatchedBracket _ => 3
  | .tapeUnderflow _ => 4
  | .stepLimitExceeded _ _ => 5
  | .invalidTokenStream _ => 6
  | .tapeOverflow _ _ => 7

/-- The code an operation's answer reports: 0 for success (R251). -/
def Response.code : Response → Nat
  | .injected => 0
  | .injectFailed e => e.code
  | .runFailed e => e.code
  | .ran .running _ => 0
  | .ran .halted _ => 0
  | .ran (.faulted e) _ => e.code

end Sys2Proof.Machine
end

