-- ==== Sys2Proof/Machine/Codec.lean ====
section
/-! DEFINITION. The codec (40_codec.md): Encode with stacking, its two checks and its emission; Decode pixel by pixel;
the two as transactions of the machine; and the meaning of a continuation pixel, which is the DECODER's (R134). -/

namespace Sys2Proof.Machine

/-! ### The base pixel -/

/-- The base pixel of both operations: `PixRead(O - 1)`, or SENTINEL at origin 0 (R126); `none` when the carrier has no
such pixel. -/
def basePixel (cfg : Config) (c : Carrier) : Option Pixel :=
  if cfg.origin = 0 then some cfg.sentinel else c.read (cfg.origin - 1)

/-- The value `prev` starts an operation with (R281). Where the carrier has no base pixel the operation fails before it
reads `prev` (R125, R133), and SENTINEL stands there (log 3). -/
def startPixel (cfg : Config) (c : Carrier) : Pixel := (basePixel cfg c).getD cfg.sentinel

/-! ### Encode -/

/-- One token joins the run list (R123). -/
def stackPush (runs : List EncodedRun) (t : Token) : List EncodedRun :=
  match runs.getLast? with
  | some r => if r.token = t ∧ t.stackable then runs.dropLast ++ [⟨t, r.count + 1⟩] else runs ++ [⟨t, 1⟩]
  | none => runs ++ [⟨t, 1⟩]

/-- `Stack(T)` (R123). -/
def stack (ts : List Token) : List EncodedRun := ts.foldl stackPush []

/-- `Expand(runs)` (R142). -/
def expand (runs : List EncodedRun) : List Token := runs.flatMap fun r => List.replicate r.count r.token

/-- Where a token sequence is invalid for Encode, if it is (R124): the first `EndOfProgram` when it stands before the last
place, `len(T)` when there is none. -/
def invalidTokenIndex (ts : List Token) : Option Nat :=
  let j := ts.findIdx fun t => decide (t = .endOfProgram)
  if j + 1 = ts.length then none else some j

/-- `avail` (R125). -/
def availablePixels (cfg : Config) (c : Carrier) : Nat :=
  if c.w * c.h ≥ cfg.origin then c.w * c.h - cfg.origin else 0

/-- `count` pixels equal to `p` written from the offset `k` on (R127). -/
def writePixels (o : Nat) (p : Pixel) : Nat → Nat → List Pixel → List Pixel
  | 0, _, pix => pix
  | count + 1, k, pix => writePixels o p count (k + 1) (pix.set (o + k) p)

/-- The emission loop (R127): for each run a head pixel and `c - 1` continuation pixels. -/
def emitRuns (dt : DeltaTable) (o : Nat) : List EncodedRun → Pixel → Nat → List Pixel → List Pixel
  | [], _, _, pix => pix
  | r :: rest, prev, k, pix =>
    let p := prev.add (dt.vectorFor r.token)
    emitRuns dt o rest p (k + 1 + (r.count - 1)) (writePixels o p (r.count - 1) (k + 1) (pix.set (o + k) p))

/-- The ENCODER's working state at the start of an inject (R281). -/
def EncoderWork.start (cfg : Config) (c : Carrier) (ts : List Token) : EncoderWork :=
  ⟨ts, [], startPixel cfg c, 0⟩

/-- Encode from a working state: validity (R124), then capacity (R125), then stacking and emission (R123, R127). -/
def encodeFrom (cfg : Config) (c : Carrier) (w : EncoderWork) : Except Err Carrier :=
  match invalidTokenIndex w.input with
  | some i => .error (.invalidTokenStream i)
  | none =>
    if availablePixels cfg c < w.input.length then
      .error (.insufficientCapacity w.input.length (availablePixels cfg c))
    else
      .ok { c with pix := emitRuns cfg.deltaTable cfg.origin (w.runs ++ stack w.input) w.prev w.k c.pix }

/-- `Encode(T, W, H, Pix, CFG)` (R120). -/
def encode (cfg : Config) (c : Carrier) (ts : List Token) : Except Err Carrier :=
  encodeFrom cfg c (EncoderWork.start cfg c ts)

/-- The ENCODER's transaction: on success all writes commit together, on an error the carrier is unchanged (R71, R127,
R129). -/
def runEncoder (s : State) : State :=
  match encodeFrom s.cfg s.carrier s.encoder with
  | .ok c => { s with carrier := c }.finish .injected
  | .error e => s.finish (.injectFailed e)

/-! ### Decode -/

/-- How a pixel leaves the DECODER. -/
inductive DecodeStep where
  | more (w : DecoderWork)
  | done (toks : List Token)
  | failed (reason : CorruptReason) (k : Nat)
  deriving DecidableEq, Repr

/-- The pixel `cur` stands for the token `t`: the end of the loop body of R133. -/
def DecoderWork.accept (w : DecoderWork) (t : Token) (cur : Pixel) : DecodeStep :=
  if t = .endOfProgram then .done (w.toks ++ [t])
  else .more ⟨cur, some t, w.k + 1, w.toks ++ [t]⟩

/-- A continuation pixel (R134): the previous pixel's instruction once more. Its value is the previous pixel's, since the
delta is zero. -/
def DecoderWork.continuation (w : DecoderWork) : DecodeStep :=
  match w.prevT with
  | none => .failed .leadingContinuation w.k
  | some t => w.accept t w.prev

/-- One pixel of the loop of R133: `D = cur ⊖ prev`, matched by R98. -/
def DecoderWork.pixel (dt : DeltaTable) (w : DecoderWork) (cur : Pixel) : DecodeStep :=
  match decodeDelta dt (cur.sub w.prev) with
  | .ok i =>
    match i.token? with
    | some t => w.accept t cur
    | none => w.continuation
  | .error _ => .failed (.unknownDelta (cur.sub w.prev)) w.k

/-- The loop of R133 over the pixels that are left; when none is left the stream is truncated (R136). It stops at the
first `EndOfProgram` or the first failing pixel, and looks at no pixel after it (R137). -/
def decodePixels (dt : DeltaTable) : List Pixel → DecoderWork → DecodeStep
  | [], w => .failed .truncated w.k
  | cur :: rest, w =>
    match w.pixel dt cur with
    | .more w' => decodePixels dt rest w'
    | .done toks => .done toks
    | .failed r k => .failed r k

/-- The DECODER's working state at the start of a decode (R36, R281). -/
def DecoderWork.start (cfg : Config) (c : Carrier) : DecoderWork := ⟨startPixel cfg c, none, 0, []⟩

/-- Decode from a working state: the pixels from `O + k` on. -/
def decodeFrom (cfg : Config) (c : Carrier) (w : DecoderWork) : DecodeStep :=
  decodePixels cfg.deltaTable (c.pix.drop (cfg.origin + w.k)) w

/-- The error of a failing pixel at offset `k`, with its carrier index (R252). -/
def corruptErr (cfg : Config) (r : CorruptReason) (k : Nat) : Err := .corruptStream r k (cfg.origin + k)

/-- `Decode(W, H, Pix, CFG)` (R121). -/
def decode (cfg : Config) (c : Carrier) : Except Err (List Token) :=
  match decodeFrom cfg c (DecoderWork.start cfg c) with
  | .more w => .error (corruptErr cfg .truncated w.k)
  | .done toks => .ok toks
  | .failed r k => .error (corruptErr cfg r k)

/-- The LOADER's working state at the start of a load (R37, R162). -/
def LoaderWork.start (toks : List Token) : LoaderWork := ⟨toks, 0, [], []⟩

/-- What a pixel's step makes of the machine: the decode goes on; the token sequence goes to the LOADER (R284); or the
run fails and the LOADER and the ENGINE never start (R253). -/
def State.afterPixel (s : State) : DecodeStep → State
  | .more w => { s with decoder := w }
  | .done toks => { s with decoder := DecoderWork.idle, active := .loader, loader := LoaderWork.start toks }
  | .failed r k => s.finish (.runFailed (corruptErr s.cfg r k))

/-- The DECODER's transaction; it never writes the carrier (R138). -/
def runDecoder (s : State) : State := s.afterPixel (decodeFrom s.cfg s.carrier s.decoder)

/-- CONTINUATION (R134): the DECODER meets a pixel with the reserved zero delta. -/
def execContinuation (s : State) : Result := .next (s.afterPixel s.decoder.continuation)

end Sys2Proof.Machine
end

