-- ==== Sys2Proof/Machine/Loader.lean ====
section
/-! DEFINITION. The program loader (41_loader.md): normalisation, the bracket scan, and the load as a transaction of the
machine. -/

namespace Sys2Proof.Machine

/-- The program sequence `P` of a token sequence `S` (R160). -/
def normalise : List Token → List Token
  | [] => [.endOfProgram]
  | t :: rest => if t = .endOfProgram then [.endOfProgram] else t :: normalise rest

/-- The bracket scan (R162) over the tokens that are left; an error is the offending position (R163, R164). -/
def bracketScan : List Token → LoaderWork → Except Nat LoaderWork
  | [], w =>
    match w.stack with
    | [] => .ok w
    | j :: _ => .error j
  | t :: rest, w =>
    if t = .loopOpen then bracketScan rest { w with stack := w.index :: w.stack, index := w.index + 1 }
    else if t = .loopClose then
      match w.stack with
      | [] => .error w.index
      | j :: below =>
        bracketScan rest { w with stack := below, jt := JumpTable.pair w.jt j w.index, index := w.index + 1 }
    else bracketScan rest { w with index := w.index + 1 }

/-- The load from a working state: `Ok(Prog, JT)` or `Err(UnmatchedBracket(pos))` (R161). -/
def loadFrom (w : LoaderWork) : Except Err (List Token × JumpTable) :=
  match bracketScan ((normalise w.input).drop w.index) w with
  | .ok w' => .ok (normalise w.input, w'.jt)
  | .error pos => .error (.unmatchedBracket pos)

/-- `Load(S)` (R161, R162). -/
def load (toks : List Token) : Except Err (List Token × JumpTable) := loadFrom ⟨toks, 0, [], []⟩

/-- The LOADER's transaction: on success the ENGINE is reset and starts (R284); on an error it never starts (R253). -/
def runLoader (s : State) : State :=
  match loadFrom s.loader with
  | .ok (prog, jt) => { s.resetEngine prog jt with loader := LoaderWork.idle, active := .engine }
  | .error e => s.finish (.runFailed e)

end Sys2Proof.Machine
end

