-- ==== Sys2Proof/Machine/Operands.lean ====
section
/-! DEFINITION. What the instructions work on. No instruction has an operand field (30_encoding.md R101): they work on
the current cell `Tape[dp]` (10_state.md R41), on the partner of the bracket at `ip` (41_loader.md R166) and on the input
source (45_io.md R221). -/

namespace Sys2Proof.Machine

/-- `Tape[dp]` (R41); meant where the cell exists (`cellInRange`). -/
def State.cell (s : State) : Byte := Memory.read s.tape s.dp

/-- Goes on with the current cell; a cell outside a bounded tape does not exist (R40, R62). -/
def State.onCell (s : State) (k : Byte → Result) : Result :=
  if s.cellInRange then k s.cell else .fault .cellOutsideTape

/-- `ip <- JT[ip]` (R230, R231). -/
def State.jumpToPartner (s : State) : Result :=
  match JumpTable.target s.jt s.ip with
  | some j => .next (s.jump j)
  | none => .fault .jumpTargetUndefined

/-- What `InPoll()` returns (R14). -/
inductive Poll where
  | byte (b : Byte)
  | exhausted
  | notYet
  deriving DecidableEq, Repr

/-- `InPoll()` (R221). -/
def State.inPoll (s : State) : Poll :=
  match s.input[s.inCursor]? with
  | some b => .byte b
  | none => if s.closed then .exhausted else .notYet

end Sys2Proof.Machine
end

