-- ==== Sys2Proof/Machine/Cycle.lean ====
section
/-! DEFINITION. The cycle: the HOST's operations (70_reset_and_hazards.md R284), the engine's step around the instruction
rule (42_engine_cycle.md R181 to R188), and the placing of one instruction where the next step runs it. `perform` is the
instruction rule (R184), which Dispatch.lean supplies. -/

namespace Sys2Proof.Machine

/-! ### The HOST's side -/

/-- An operation starts (R3, R9, R30, R284). An ill-formed configuration is refused (R8), and so is a carrier without its
`W * H` pixels (R285). A run gets an engine of its own, with nothing of an earlier run in it (R74, R280). -/
def State.begin (s : State) : Operation → Result
  | .inject cfg toks carrier =>
    let c := carrier.getD s.carrier
    if !cfg.wf then .refused .illFormedConfig
    else if !c.wf then .refused .malformedCarrier
    else .next { s with cfg := cfg, carrier := c, active := .encoder, encoder := EncoderWork.start cfg c toks }
  | .run cfg carrier input closed arrivals =>
    let c := carrier.getD s.carrier
    if !cfg.wf then .refused .illFormedConfig
    else if !c.wf then .refused .malformedCarrier
    else .next { s.resetEngine [] [] with
      cfg := cfg, carrier := c, active := .decoder, decoder := DecoderWork.start cfg c,
      input := input, closed := closed, arrivals := arrivals }

/-- With no operation in progress the next request starts; with no request nothing changes (log 7). -/
def State.hostStep (s : State) : Result :=
  match s.pending with
  | [] => .next s
  | op :: rest => { s with pending := rest }.begin op

/-- The HOST appends a byte to IN, which it may do only while the source is open (R44). -/
def State.hostByte (s : State) (b : Byte) : State :=
  if s.closed then s else { s with input := s.input ++ [b] }

/-- The HOST closes the source (R44). -/
def State.hostClose (s : State) : State := { s with closed := true }

/-- The next HOST action of the schedule lands, which is what lifts a hold (R188); with none left the hold goes on and
nothing changes (log 7). -/
def State.hostArrival (s : State) : State :=
  match s.arrivals with
  | [] => s
  | .byte b :: rest => { s with arrivals := rest }.hostByte b
  | .close :: rest => { s with arrivals := rest }.hostClose

/-! ### The ENGINE's step -/

/-- The step-limit check (R182). -/
def State.limitReached (s : State) : Bool :=
  match s.cfg.stepLimit with
  | none => false
  | some l => decide (s.steps ≥ l)

/-- The fetch (R183). -/
def State.fetch (s : State) : Option Token := s.prog[s.ip]?

/-- The instruction holds (R188): an Input that finds no byte and an open source. -/
def State.holds (s : State) (t : Token) : Bool := decide (t = .input) && decide (s.inPoll = .notYet)

/-- The step counter (R186): an instruction that completed counts one, a raising one counts nothing. -/
def retire : Result → Result
  | .next s =>
    match s.status with
    | .running => .next s.countStep
    | .halted => .next s.countStep
    | .faulted _ => .next s
  | .fault f => .fault f
  | .refused r => .refused r

/-- `Step()` (R186): limit check (log 14), fetch, then the instruction or, where it holds, the HOST's next action
(log 6). -/
def engineStep (perform : Instr → State → Result) (s : State) : Result :=
  if s.limitReached then .next (s.raise (.stepLimitExceeded s.ip s.steps))
  else
    match s.fetch with
    | none => .fault .fetchOutsideProgram
    | some t => if s.holds t then .next s.hostArrival else retire (perform t.toInstr s)

/-- The end of a run: `return (status, out)` (R187, R284). The engine's registers stay as they are (R181; log 8). -/
def State.returnRun (s : State) : State := s.finish (.ran s.status s.out)

/-- One step of the machine: the active agent's (R6). No agent runs with an ill-formed configuration (R8). -/
def cycle (perform : Instr → State → Result) (s : State) : Result :=
  match s.active with
  | .host => s.hostStep
  | .encoder => if s.cfg.wf then .next (runEncoder s) else .refused .illFormedConfig
  | .decoder => if s.cfg.wf then .next (runDecoder s) else .refused .illFormedConfig
  | .loader => if s.cfg.wf then .next (runLoader s) else .refused .illFormedConfig
  | .engine =>
    if s.cfg.wf then
      match s.status with
      | .running => engineStep perform s
      | .halted => .next s.returnRun
      | .faulted _ => .next s.returnRun
    else .refused .illFormedConfig

/-! ### Placing one instruction -/

/-- The shortest loadable program that holds the token, its jump table and the token's index in it. A bracket needs its
partner (R165). -/
def programFor : Token → List Token × JumpTable × Nat
  | .endOfProgram => ([.endOfProgram], [], 0)
  | .loopOpen => ([.loopOpen, .loopClose, .endOfProgram], [(0, 1), (1, 0)], 0)
  | .loopClose => ([.loopOpen, .loopClose, .endOfProgram], [(0, 1), (1, 0)], 1)
  | .moveRight => ([.moveRight, .endOfProgram], [], 0)
  | .moveLeft => ([.moveLeft, .endOfProgram], [], 0)
  | .increment => ([.increment, .endOfProgram], [], 0)
  | .decrement => ([.decrement, .endOfProgram], [], 0)
  | .output => ([.output, .endOfProgram], [], 0)
  | .input => ([.input, .endOfProgram], [], 0)

/-- The token in the program store, at `ip`, with the ENGINE active and running. -/
def State.placeToken (s : State) (t : Token) : State :=
  { s with
    active := .engine, prog := (programFor t).1, jt := (programFor t).2.1, ip := (programFor t).2.2,
    status := .running }

/-- The delta at the first embedded pixel of a carrier, with the DECODER active at that pixel. -/
def State.placePixel (s : State) (d : Pixel) : State :=
  { s with
    active := .decoder,
    carrier := ⟨s.cfg.origin + 1, 1, List.replicate s.cfg.origin s.cfg.sentinel ++ [s.cfg.sentinel.add d]⟩,
    decoder := ⟨s.cfg.sentinel, none, 0, []⟩ }

/-- The table word's instruction placed where the next step runs it: a token in the program store; the continuation
marker, and a word that is no encoding, as the first embedded pixel of a carrier (log 4). Of a word that is not 32 bits long,
the pixel is the 32-bit word with the bits above `nbits` 0, or the low 32 bits (DESIGN CHOICE, log 11). -/
def State.placeWord (s : State) (nbits w : Nat) : State :=
  match decodeTableWord nbits w with
  | some i =>
    match i.token? with
    | some t => s.placeToken t
    | none => s.placePixel (encodeDelta s.cfg.deltaTable i)
  | none => s.placePixel (Pixel.unpack (BitVec.ofNat 32 (w % 2 ^ nbits)))

end Sys2Proof.Machine
end

