-- ==== Sys2Proof/Machine/Flags.lean ====
section
/-! DEFINITION. Conditions. The hardware has no flags and no condition codes: "The only condition any instruction tests is
whether the current cell is 0 (`LoopOpen`, `LoopClose`), and it is read directly from `Tape[dp]` when the instruction
executes" (10_state.md R42). -/

namespace Sys2Proof.Machine

/-- The one condition (R42). -/
def cellIsZero (v : Byte) : Bool := decide (v = 0)

/-- A conditional jump to the bracket's partner: taken, no 1 is added; not taken, `ip + 1` (R185). -/
def State.branchIf (s : State) (taken : Byte → Bool) : Result :=
  s.onCell fun v => if taken v then s.jumpToPartner else .next s.advance

end Sys2Proof.Machine
end

