-- ==== Sys2Proof/Machine/CellArith.lean ====
section
/-! DEFINITION. The cell arithmetic instructions (44_cell_arith.md): one on the current cell, modulo 256, no error
(R212). -/

namespace Sys2Proof.Machine

/-- Increment (R210). -/
def execIncrement (s : State) : Result :=
  s.onCell fun v => .next (s.writeCell (v + 1)).advance

/-- Decrement (R211). -/
def execDecrement (s : State) : Result :=
  s.onCell fun v => .next (s.writeCell (v - 1)).advance

end Sys2Proof.Machine
end

