-- ==== Sys2Proof/Machine/Control.lean ====
section
/-! DEFINITION. The control-flow instructions (46_control.md). -/

namespace Sys2Proof.Machine

/-- LoopOpen (R230): jumps when the current cell is 0. -/
def execLoopOpen (s : State) : Result := s.branchIf fun v => cellIsZero v

/-- LoopClose (R231): jumps when the current cell is not 0. -/
def execLoopClose (s : State) : Result := s.branchIf fun v => !cellIsZero v

/-- EndOfProgram (R232): the run ends successfully, `ip` stays. -/
def execEndOfProgram (s : State) : Result := .next s.halt

end Sys2Proof.Machine
end

