-- ==== Sys2Proof/Machine/InputOutput.lean ====
section
/-! DEFINITION. The input and output instructions (45_io.md). -/

namespace Sys2Proof.Machine

/-- Output (R220). -/
def execOutput (s : State) : Result :=
  s.onCell fun v => .next (s.outPush v).advance

/-- Input on an exhausted source, by `EOF_POLICY` (R221); `in_cursor` does not advance. -/
def State.inputExhausted (s : State) : Result :=
  match s.cfg.eofPolicy with
  | .zero => s.onCell fun _ => .next (s.writeCell 0).advance
  | .unchanged => .next s.advance
  | .terminate => .next s.halt

/-- Input (R221). `NotYet` holds: no register, cell or counter changes (42_engine_cycle.md R188). -/
def execInput (s : State) : Result :=
  match s.inPoll with
  | .byte b => s.onCell fun _ => .next ((s.writeCell b).consume).advance
  | .exhausted => s.inputExhausted
  | .notYet => .next s

end Sys2Proof.Machine
end

