-- ==== Sys2Proof/Machine/Pointer.lean ====
section
/-! DEFINITION. The pointer instructions (43_pointer.md). -/

namespace Sys2Proof.Machine

/-- The move right would leave a bounded tape (R200). -/
def State.atTapeEnd (s : State) : Bool :=
  match s.cfg.tapeCells with
  | none => false
  | some n => decide (s.dp + 1 ≥ n)

/-- MoveRight (R200). -/
def execMoveRight (s : State) : Result :=
  if s.atTapeEnd then .next (s.raise (.tapeOverflow s.ip s.dp))
  else .next (s.moveTo (s.dp + 1)).advance

/-- MoveLeft (R201). -/
def execMoveLeft (s : State) : Result :=
  if s.dp = 0 then
    match s.cfg.underflowPolicy with
    | .fault => .next (s.raise (.tapeUnderflow s.ip))
    | .clamp => .next s.advance
  else .next (s.moveTo (s.dp - 1)).advance

end Sys2Proof.Machine
end

