-- ==== Sys2Proof/Machine/Dispatch.lean ====
section
/-! DEFINITION. Dispatch (42_engine_cycle.md R184): one arm per row of the opcode table. -/

namespace Sys2Proof.Machine

def exec (i : Instr) (s : State) : Host.Outcome State Fault Refusal :=
  match i with
  | .moveRight => Sys2Proof.Machine.execMoveRight s
  | .moveLeft => Sys2Proof.Machine.execMoveLeft s
  | .increment => Sys2Proof.Machine.execIncrement s
  | .decrement => Sys2Proof.Machine.execDecrement s
  | .output => Sys2Proof.Machine.execOutput s
  | .input => Sys2Proof.Machine.execInput s
  | .loopOpen => Sys2Proof.Machine.execLoopOpen s
  | .loopClose => Sys2Proof.Machine.execLoopClose s
  | .endOfProgram => Sys2Proof.Machine.execEndOfProgram s
  | .continuation => Sys2Proof.Machine.execContinuation s

end Sys2Proof.Machine
end

