-- ==== Sys2Proof/Safety.lean ====
section
/-! DEFINITION. What the claims are stated in: the shape of a program (10_state.md R38), bracket depth and balance
(41_loader.md R165), a right jump table (R166), where a run begins (40_codec.md R131), and the invariant of the machine
(42_engine_cycle.md R189 and the rules its fields cite). -/

namespace Sys2Proof.Machine

/-- R38, R160: one `EndOfProgram`, at the end. -/
def EndsOnce (p : List Token) : Prop := ∃ body, p = body ++ [.endOfProgram] ∧ Token.endOfProgram ∉ body

/-- LoopOpen read as `+1` and LoopClose as `-1` (R165). -/
def bracketWeight (t : Token) : Int := if t = .loopOpen then 1 else if t = .loopClose then -1 else 0

/-- The sum of the weights (R165). -/
def bracketDepth (p : List Token) : Int := (p.map bracketWeight).sum

/-- No prefix has a negative sum: no LoopClose meets an empty stack. -/
def NeverBelow (p : List Token) : Prop := ∀ k, 0 ≤ bracketDepth (p.take k)

/-- R165: "every prefix of `P` has a sum `>= 0` and `P` has sum 0". -/
def Balanced (p : List Token) : Prop := NeverBelow p ∧ bracketDepth p = 0

/-- The instruction at `i` is a bracket. -/
def IsBracketAt (p : List Token) (i : Nat) : Prop := p[i]? = some .loopOpen ∨ p[i]? = some .loopClose

/-- R166, its four clauses and where the table is defined. -/
structure JumpTableRight (p : List Token) (jt : JumpTable) : Prop where
  /-- Defined exactly at the brackets. -/
  defined : ∀ i, (JumpTable.target jt i).isSome = true ↔ IsBracketAt p i
  /-- Clause 1. -/
  bidirectional : ∀ i j, JumpTable.target jt i = some j → JumpTable.target jt j = some i
  /-- Clause 2, LoopOpen. -/
  fromOpen : ∀ i j, JumpTable.target jt i = some j → p[i]? = some .loopOpen → i < j ∧ p[j]? = some .loopClose
  /-- Clause 2, LoopClose. -/
  fromClose : ∀ i j, JumpTable.target jt i = some j → p[i]? = some .loopClose → j < i ∧ p[j]? = some .loopOpen
  /-- Clause 3: what stands between the partners is balanced. -/
  inside : ∀ j i, JumpTable.target jt j = some i → j < i → Balanced ((p.drop (j + 1)).take (i - (j + 1)))
  /-- Clause 3: non-crossing. -/
  nested : ∀ j i k m, JumpTable.target jt j = some i → JumpTable.target jt k = some m → j < k → k < i → j < m ∧ m < i
  /-- Clause 4. -/
  beforeEnd : ∀ i j, JumpTable.target jt i = some j → j + 1 < p.length

/-- Token `k` begins a run (R131): "when `k = 0`, or `T[k] != T[k − 1]`, or `T[k]` is not stackable". -/
def beginsRun (ts : List Token) (k : Nat) : Bool :=
  decide (k = 0) || decide (ts[k]? ≠ ts[k - 1]?) || !((ts[k]?).any Token.stackable)

/-- The pixel the delta at offset `k` is taken from (R126, R133): the base pixel, or the embedded pixel before. -/
def pixelBefore (cfg : Config) (c : Carrier) (k : Nat) : Option Pixel :=
  if k = 0 then some (startPixel cfg c) else c.pix[cfg.origin + k - 1]?

/-- The current cell exists (R62). -/
def CellExists (s : State) : Prop := ∀ n, s.cfg.tapeCells = some n → s.dp < n

/-- The step limit is not reached (R182). -/
def BelowLimit (s : State) : Prop := ∀ l, s.cfg.stepLimit = some l → s.steps < l

/-- The ENGINE is the active agent, runs, is below its limit, and fetches `t` (R181 to R183). -/
structure Fetches (s : State) (t : Token) : Prop where
  active : s.active = .engine
  config : s.cfg.wf = true
  running : s.status = .running
  below : BelowLimit s
  fetched : s.prog[s.ip]? = some t

/-- Input would hold (R188, R221): no byte is left and the source is open. -/
def SourceWaits (s : State) : Prop := s.input.length ≤ s.inCursor ∧ s.closed = false

/-- The HOST's actions on the input source, one after another (R44). -/
def State.land (s : State) : List Arrival → State
  | [] => s
  | .byte b :: rest => (s.hostByte b).land rest
  | .close :: rest => s.hostClose.land rest

/-- The state with its whole schedule of bytes and closing landed (R190). -/
def State.landed (s : State) : State := { s with arrivals := [] }.land s.arrivals

/-- What holds of the engine from its start to the end of its run. -/
structure EngineInv (s : State) : Prop where
  /-- R38. -/
  program : EndsOnce s.prog
  /-- R166. -/
  jumps : JumpTableRight s.prog s.jt
  /-- R189. -/
  ipInProgram : s.status = .running → s.ip < s.prog.length
  /-- R62: the current cell exists. -/
  cellExists : ∀ n, s.cfg.tapeCells = some n → s.dp < n
  /-- R40, R62: nothing is stored outside a bounded tape. -/
  tapeBounded : ∀ n, s.cfg.tapeCells = some n → ∀ c ∈ s.tape, c.1 < n
  /-- R44, R221: the cursor never passes the bytes made available. -/
  cursor : s.inCursor ≤ s.input.length
  /-- R182: "at most `L` instructions complete in a run". -/
  withinLimit : ∀ l, s.cfg.stepLimit = some l → s.steps ≤ l

/-- The invariant of the machine. -/
structure Inv (s : State) : Prop where
  /-- R8. -/
  config : s.cfg.wf = true
  /-- R34. -/
  carrier : s.carrier.wf = true
  /-- The tape keeps its canonical form. -/
  tape : Memory.wf s.tape
  /-- The engine, while it is the active agent. -/
  engine : s.active = .engine → EngineInv s
  /-- R35: the ENCODER's working state is that of an operation's start, and does not outlive the operation. -/
  encoderStart : s.active = .encoder → ∃ ts, s.encoder = EncoderWork.start s.cfg s.carrier ts
  encoderIdle : s.active ≠ .encoder → s.encoder = EncoderWork.idle
  /-- R36. -/
  decoderStart : s.active = .decoder → s.decoder = DecoderWork.start s.cfg s.carrier
  decoderIdle : s.active ≠ .decoder → s.decoder = DecoderWork.idle
  /-- R37, R139. -/
  loaderStart : s.active = .loader → ∃ ts, EndsOnce ts ∧ s.loader = LoaderWork.start ts
  loaderIdle : s.active ≠ .loader → s.loader = LoaderWork.idle

end Sys2Proof.Machine
end

