-- ==== Sys2Proof/Certificates/Slice0/Obligations.lean ====
section
/-! DEFINITION. The statements for the provers, in the order of spec/: encoding, codec, loader, engine, instructions,
operations, the whole machine. Each docstring names the rule it formalises. Where a clause is the model's own choice the
docstring says so and names the log entry. -/

open Sys2Proof Sys2Proof.Machine

/-! ### Arithmetic and encoding -/

/-- R11: the byte arithmetic and the reduction are modulo 256, with a result in 0 to 255. -/
def Obligations.ArithmeticIsModulo256 : Prop :=
  (∀ a b : Byte, (a + b).toNat = (a.toNat + b.toNat) % 256 ∧ ((a - b).toNat : Int) = ((a.toNat : Int) - b.toNat) % 256) ∧
  (∀ v : Int, ((red v).toNat : Int) = v % 256 ∧ (red v).toNat < 256)

/-- R12: the pixel operations act channel by channel, and `⊖` takes a delta back. -/
def Obligations.PixelOperationsActChannelwise : Prop :=
  ∀ p d : Pixel,
    p.add d = ⟨p.r + d.r, p.g + d.g, p.b + d.b, p.a + d.a⟩ ∧ p.sub d = ⟨p.r - d.r, p.g - d.g, p.b - d.b, p.a - d.a⟩ ∧
    (p.add d).sub p = d ∧ p.add (d.sub p) = d ∧ (p.sub d = Pixel.zero ↔ p = d)

/-- R60: the linear index of a grid position is an index of the carrier, and different positions have different indices. -/
def Obligations.RowMajorIndexIsInjective : Prop :=
  ∀ (c : Carrier) (x y x' y' : Nat), x < c.w → y < c.h → x' < c.w → y' < c.h →
    c.linear x y = y * c.w + x ∧ c.linear x y < c.w * c.h ∧ (c.linear x y = c.linear x' y' → x = x' ∧ y = y')

/-- R92: the nine token codes with their stackable column, each code read back, and the codes 0x9 to 0xF refused by
name. -/
def Obligations.TokenCodesRoundTrip : Prop :=
  Token.all.map Token.code = [0x0, 0x1, 0x2, 0x3, 0x4, 0x5, 0x6, 0x7, 0x8] ∧
  Token.all.map Token.stackable = [true, true, true, true, false, false, false, false, false] ∧
  (∀ t : Token, Token.ofCode t.code = .ok t) ∧
  (∀ c : BitVec 4, 9 ≤ c.toNat → Token.ofCode c = .error (.reservedTokenCode c))

/-- R94: what the check of a delta table says. -/
def Obligations.DeltaTableCheckSaysR94 : Prop :=
  ∀ dt : DeltaTable,
    dt.wf = true ↔
      (∀ t, (dt.entry t).reduce ≠ Pixel.zero) ∧ (∀ t u, t ≠ u → (dt.entry t).reduce ≠ (dt.entry u).reduce)

/-- R98: a delta is decoded by exact match of all four bytes. -/
def Obligations.DeltaDecodesByExactMatch : Prop :=
  ∀ (dt : DeltaTable) (d : Pixel), dt.wf = true →
    (d = Pixel.zero → decodeDelta dt d = .ok .continuation) ∧
    (∀ t, d = dt.vectorFor t → decodeDelta dt d = .ok t.toInstr ∧ ∀ u, d = dt.vectorFor u → u = t) ∧
    (d ≠ Pixel.zero → (∀ t, d ≠ dt.vectorFor t) → decodeDelta dt d = .error (.unknownDelta d))

/-- Decode and encode agree (R97, R98, R102): under every well-formed table, for every row of the opcode table, as a delta
and as a packed word; and what decodes to an instruction is that instruction's delta. -/
def Obligations.DecodeInvertsEncode : Prop :=
  ∀ dt : DeltaTable, dt.wf = true →
    (∀ i, decodeDelta dt (encodeDelta dt i) = .ok i ∧ decodeWord dt (encodeWord dt i) = .ok i) ∧
    (∀ d i, decodeDelta dt d = .ok i → encodeDelta dt i = d) ∧
    (∀ w i, decodeWord dt w = .ok i → encodeWord dt i = w)

/-- R102: the opcode map under DT0, one word per row, with the token code of the nine instructions. -/
def Obligations.OpcodeMapDecodes : Prop :=
  (decodeTableWord 32 0x08000000 = some .moveRight ∧ Token.code .moveRight = 0x0) ∧
  (decodeTableWord 32 0xF8000000 = some .moveLeft ∧ Token.code .moveLeft = 0x1) ∧
  (decodeTableWord 32 0x00080000 = some .increment ∧ Token.code .increment = 0x2) ∧
  (decodeTableWord 32 0x00F80000 = some .decrement ∧ Token.code .decrement = 0x3) ∧
  (decodeTableWord 32 0x00000800 = some .output ∧ Token.code .output = 0x4) ∧
  (decodeTableWord 32 0x0000F800 = some .input ∧ Token.code .input = 0x5) ∧
  (decodeTableWord 32 0x08000800 = some .loopOpen ∧ Token.code .loopOpen = 0x6) ∧
  (decodeTableWord 32 0xF800F800 = some .loopClose ∧ Token.code .loopClose = 0x7) ∧
  (decodeTableWord 32 0x08080800 = some .endOfProgram ∧ Token.code .endOfProgram = 0x8) ∧
  decodeTableWord 32 0x00000000 = some .continuation

/-! ### Encode -/

/-- R142. -/
def Obligations.ExpandInvertsStack : Prop :=
  ∀ ts : List Token, expand (stack ts) = ts ∧ ((stack ts).map EncodedRun.count).sum = ts.length

/-- R123, R33: every run is well formed, so an instruction that is not stackable is a run of length 1, and two adjacent
runs never hold the same stackable instruction. With R142 this determines the run list. -/
def Obligations.StackRunsAreMaximal : Prop :=
  ∀ ts : List Token,
    (∀ r ∈ stack ts, 1 ≤ r.count ∧ (r.token.stackable = false → r.count = 1)) ∧
    (∀ i r r', (stack ts)[i]? = some r → (stack ts)[i + 1]? = some r' → r.token = r'.token → r.token.stackable = false)

/-- R124: which token sequences Encode takes, and the position it reports for the others. The three cases are all there
are. -/
def Obligations.EncodeChecksTheTokens : Prop :=
  ∀ (cfg : Config) (c : Carrier) (ts : List Token),
    (EndsOnce ts → ∀ i, encode cfg c ts ≠ .error (.invalidTokenStream i)) ∧
    (∀ i, i + 1 < ts.length → ts[i]? = some .endOfProgram → (∀ j, j < i → ts[j]? ≠ some .endOfProgram) →
      encode cfg c ts = .error (.invalidTokenStream i)) ∧
    (Token.endOfProgram ∉ ts → encode cfg c ts = .error (.invalidTokenStream ts.length))

/-- R125, R257: for a valid token sequence Encode fails exactly when fewer than `n` pixels are left from the origin on. -/
def Obligations.EncodeChecksCapacity : Prop :=
  ∀ (cfg : Config) (c : Carrier) (ts : List Token), EndsOnce ts →
    (c.w * c.h < cfg.origin + ts.length →
      encode cfg c ts =
        .error (.insufficientCapacity ts.length (if cfg.origin ≤ c.w * c.h then c.w * c.h - cfg.origin else 0))) ∧
    (cfg.origin + ts.length ≤ c.w * c.h → ∃ c', encode cfg c ts = .ok c')

/-- R128: a successful Encode writes the pixels `Pix[O .. O + n - 1]`, all of them pixels of the carrier, each with the
value that the run heads up to it add up to from the base pixel; it changes no other pixel, and the grid keeps its size. -/
def Obligations.EncodeWritesOnlyItsRegion : Prop :=
  ∀ (cfg : Config) (c c' : Carrier) (ts : List Token), encode cfg c ts = .ok c' →
    cfg.origin + ts.length ≤ c.w * c.h ∧ c'.w = c.w ∧ c'.h = c.h ∧ c'.pix.length = c.pix.length ∧
    (c.wf = true → ∀ k, k < ts.length →
      c'.pix[cfg.origin + k]? = some ((((List.range (k + 1)).filter (beginsRun ts)).filterMap (ts[·]?)).foldl
        (fun acc u => acc.add (cfg.deltaTable.vectorFor u)) (startPixel cfg c))) ∧
    ∀ i, i < cfg.origin ∨ cfg.origin + ts.length ≤ i → c'.pix[i]? = c.pix[i]?

/-- R131: the closed form of the pixel at offset `k`, and its delta from the pixel before. -/
def Obligations.EncodedPixelsHaveTheClosedForm : Prop :=
  ∀ (cfg : Config) (c c' : Carrier) (ts : List Token), c.wf = true → encode cfg c ts = .ok c' →
    ∀ k t, ts[k]? = some t →
      ∃ p q, c'.pix[cfg.origin + k]? = some p ∧ pixelBefore cfg c' k = some q ∧
        p.sub q = (if beginsRun ts k then cfg.deltaTable.vectorFor t else Pixel.zero) ∧
        p = (((List.range (k + 1)).filter (beginsRun ts)).filterMap (ts[·]?)).foldl
              (fun acc u => acc.add (cfg.deltaTable.vectorFor u)) (startPixel cfg c)

/-- R120, R129, R253: the ENCODER's transaction is one step. On success the new carrier is in place; on an error the carrier
is exactly the old one. Either way the response goes to the HOST and nothing else of the machine changes but the
ENCODER's working state. (That the working states go back to their idle values is the model's choice, log 3.) -/
def Obligations.InjectIsOneTransaction : Prop :=
  ∀ (s : State) (ts : List Token), s.active = .encoder → s.cfg.wf = true →
    s.encoder = EncoderWork.start s.cfg s.carrier ts → s.decoder = DecoderWork.idle → s.loader = LoaderWork.idle →
    (∀ c', encode s.cfg s.carrier ts = .ok c' →
      step s = .next { s with
        carrier := c', active := .host, encoder := EncoderWork.idle, responses := s.responses ++ [.injected] }) ∧
    (∀ e, encode s.cfg s.carrier ts = .error e →
      step s = .next { s with
        active := .host, encoder := EncoderWork.idle, responses := s.responses ++ [.injectFailed e] })

/-! ### Decode -/

/-- R133, R134, R137, R141: Decode answers `toks` exactly when `toks` ends in its only `EndOfProgram` and every pixel's delta
is that of its token, or zero with the same token as before. -/
def Obligations.DecodeIsDeterminedByTheDeltas : Prop :=
  ∀ (cfg : Config) (c : Carrier) (toks : List Token), cfg.deltaTable.wf = true →
    (decode cfg c = .ok toks ↔
      EndsOnce toks ∧
      ∀ k t, toks[k]? = some t →
        ∃ cur prev, c.pix[cfg.origin + k]? = some cur ∧ pixelBefore cfg c k = some prev ∧
          (cur.sub prev = cfg.deltaTable.vectorFor t ∨ (cur = prev ∧ 0 < k ∧ toks[k - 1]? = some t)))

/-- R137, R138, R139: a decode that succeeds is not changed by any pixel after the one that gave `EndOfProgram`, and it
needs every pixel up to that one: with the carrier cut off before it, the stream is truncated. -/
def Obligations.DecodeReadsExactlyTheStream : Prop :=
  ∀ (cfg : Config) (c : Carrier) (toks : List Token), decode cfg c = .ok toks →
    EndsOnce toks ∧
    (∀ c' : Carrier, (∀ i, i < cfg.origin + toks.length → c'.pix[i]? = c.pix[i]?) → decode cfg c' = .ok toks) ∧
    (∀ (c' : Carrier) m, m < toks.length → c'.pix = c.pix.take (cfg.origin + m) →
      decode cfg c' = .error (.corruptStream .truncated m (cfg.origin + m)))

/-- R134 (first embedded pixel), R136, D25: a leading continuation and an origin at or past the end of the carrier. -/
def Obligations.DecodeRefusesLeadingContinuationAndEmptyStream : Prop :=
  ∀ (cfg : Config) (c : Carrier), c.wf = true →
    (c.pix[cfg.origin]? = some (startPixel cfg c) →
      decode cfg c = .error (.corruptStream .leadingContinuation 0 cfg.origin)) ∧
    (c.w * c.h ≤ cfg.origin → decode cfg c = .error (.corruptStream .truncated 0 cfg.origin))

/-- R134 to R136, R252, R257: every error of Decode is a CorruptStream whose information is right: its carrier index is
`O + k`; it is the first failing pixel, since every pixel before it stands for a token that is not `EndOfProgram`; a leading
continuation is at offset 0, where the pixel equals the base; an unknown delta is the nonzero delta of the pixel at `k`, and
no instruction's; a truncated stream ends at the end of the carrier. -/
def Obligations.DecodeErrorsRecordTheFailingPixel : Prop :=
  ∀ (cfg : Config) (c : Carrier) (e : Err), c.wf = true → decode cfg c = .error e →
    ∃ r k, e = .corruptStream r k (cfg.origin + k) ∧
      (∃ toks : List Token, toks.length = k ∧ Token.endOfProgram ∉ toks ∧
        ∀ j t, toks[j]? = some t →
          ∃ cur prev, c.pix[cfg.origin + j]? = some cur ∧ pixelBefore cfg c j = some prev ∧
            (cur.sub prev = cfg.deltaTable.vectorFor t ∨ (cur = prev ∧ 0 < j ∧ toks[j - 1]? = some t))) ∧
      (r = .truncated → k = c.w * c.h - cfg.origin) ∧
      (r = .leadingContinuation → k = 0 ∧ c.pix[cfg.origin]? = some (startPixel cfg c)) ∧
      (∀ d, r = .unknownDelta d →
        ∃ cur prev, c.pix[cfg.origin + k]? = some cur ∧ pixelBefore cfg c k = some prev ∧ d = cur.sub prev ∧
          d ≠ Pixel.zero ∧ ∀ t, cfg.deltaTable.vectorFor t ≠ d)

/-- R134, R141: a continuation pixel after a pixel that decoded to `t`, stackable or not, is another `t`; with no pixel
before it the run fails; the engine, the carrier and all else stay. (A continuation after `EndOfProgram` "is never
read": the third clause is the model's, log 12.) -/
def Obligations.ContinuationRepeatsThePreviousToken : Prop :=
  ∀ s : State,
    (∀ t, s.decoder.prevT = some t → t ≠ .endOfProgram →
      exec .continuation s = .next { s with
        decoder := ⟨s.decoder.prev, some t, s.decoder.k + 1, s.decoder.toks ++ [t]⟩ }) ∧
    (s.decoder.prevT = none →
      exec .continuation s = .next (s.finish
        (.runFailed (.corruptStream .leadingContinuation s.decoder.k (s.cfg.origin + s.decoder.k))))) ∧
    (s.decoder.prevT = some .endOfProgram →
      exec .continuation s = .next { s with
        decoder := DecoderWork.idle, active := .loader,
        loader := LoaderWork.start (s.decoder.toks ++ [.endOfProgram]) })

/-- R133, R134: the decode step runs the continuation pixel it meets: where the next embedded pixel equals the one before,
the transaction is the meaning of CONTINUATION and then the rest of the stream. -/
def Obligations.DecoderRunsTheContinuationItMeets : Prop :=
  ∀ s : State, s.active = .decoder → s.cfg.wf = true →
    s.carrier.pix[s.cfg.origin + s.decoder.k]? = some s.decoder.prev →
    ∃ s1, exec .continuation s = .next s1 ∧
      (s1.active = .decoder → step s = step s1) ∧ (s1.active ≠ .decoder → step s = .next s1)

/-- R140, for every well-formed table, every sentinel, origin, carrier and token sequence that Encode takes. -/
def Obligations.DecodeInvertsEncodeOnCarriers : Prop :=
  ∀ (cfg : Config) (c c' : Carrier) (ts : List Token), cfg.deltaTable.wf = true → c.wf = true →
    encode cfg c ts = .ok c' → decode cfg c' = .ok ts

/-! ### The loader -/

/-- R160. -/
def Obligations.NormaliseEndsTheProgramOnce : Prop :=
  ∀ ts : List Token,
    EndsOnce (normalise ts) ∧
    (∀ body rest, ts = body ++ .endOfProgram :: rest → Token.endOfProgram ∉ body →
      normalise ts = body ++ [.endOfProgram]) ∧
    (Token.endOfProgram ∉ ts → normalise ts = ts ++ [.endOfProgram])

/-- R165: Load succeeds exactly when the brackets of `P` are well formed. -/
def Obligations.LoadSucceedsExactlyOnBalancedBrackets : Prop :=
  ∀ ts : List Token, (∃ r, load ts = .ok r) ↔ Balanced (normalise ts)

/-- R163: the position of the first LoopClose that meets an empty stack. -/
def Obligations.UnmatchedCloseIsReportedAtItsIndex : Prop :=
  ∀ ts before after : List Token, normalise ts = before ++ .loopClose :: after → Balanced before →
    load ts = .error (.unmatchedBracket before.length)

/-- R164: with no such LoopClose, the position of the last LoopOpen that has no match. -/
def Obligations.UnclosedOpenReportsTheInnermost : Prop :=
  ∀ ts before after : List Token, normalise ts = before ++ .loopOpen :: after → NeverBelow (normalise ts) →
    Balanced after → load ts = .error (.unmatchedBracket before.length)

/-- R160, R166: the loaded program is `P`, and the jump table is right for it. -/
def Obligations.LoadBuildsTheRightJumpTable : Prop :=
  ∀ (ts prog : List Token) (jt : JumpTable), load ts = .ok (prog, jt) →
    prog = normalise ts ∧ JumpTableRight prog jt

/-! ### The stages of a run and the HOST's side -/

/-- R47, R180, R281, R284: a run whose decode and load succeed has the engine at its start values after two steps, with the
loaded program, and CFG, the carrier and the input source as they were. (The idle working states are log 3.) -/
def Obligations.RunStartsTheEngineFromReset : Prop :=
  ∀ (s : State) (toks prog : List Token) (jt : JumpTable), s.active = .decoder → s.cfg.wf = true →
    s.decoder = DecoderWork.start s.cfg s.carrier → decode s.cfg s.carrier = .ok toks → load toks = .ok (prog, jt) →
    ∃ s1, step s = .next s1 ∧ step s1 = .next { s with
      active := .engine, decoder := DecoderWork.idle, loader := LoaderWork.idle, prog := prog, jt := jt,
      ip := 0, dp := 0, tape := [], inCursor := 0, out := [], steps := 0, status := .running }

/-- R253, R257: the first failing stage ends the run, with its error; the later stages never start: no engine register, no
cell and no carrier pixel changes. -/
def Obligations.FirstFailingStageEndsTheRun : Prop :=
  ∀ s : State, s.active = .decoder → s.cfg.wf = true → s.decoder = DecoderWork.start s.cfg s.carrier →
    (∀ e, decode s.cfg s.carrier = .error e → step s = .next (s.finish (.runFailed e))) ∧
    (∀ toks e, decode s.cfg s.carrier = .ok toks → load toks = .error e →
      ∃ s1, step s = .next s1 ∧ step s1 = .next (s.finish (.runFailed e)))

/-- R138: the decode step never writes the carrier, nor any register or cell of the engine, nor CFG. -/
def Obligations.DecodeStepIsReadOnly : Prop :=
  ∀ s t : State, s.active = .decoder → step s = .next t →
    t.carrier = s.carrier ∧ t.cfg = s.cfg ∧ t.tape = s.tape ∧ t.ip = s.ip ∧ t.dp = s.dp ∧ t.inCursor = s.inCursor ∧
    t.out = s.out ∧ t.steps = s.steps ∧ t.status = s.status ∧ t.prog = s.prog ∧ t.jt = s.jt ∧ t.input = s.input ∧
    t.closed = s.closed

/-- R8, R94: no operation starts, and no agent runs, under an ill-formed configuration. (That `TAPE_CELLS = some 0` is
ill-formed, and that an agent which is already active is refused too, is the model's reading, log 10.) -/
def Obligations.IllFormedConfigurationIsRefused : Prop :=
  ∀ s : State,
    (s.active ≠ .host → s.cfg.wf = false → step s = .refused .illFormedConfig) ∧
    (∀ cfg ts c rest, s.active = .host → s.pending = .inject cfg ts c :: rest → cfg.wf = false →
      step s = .refused .illFormedConfig) ∧
    (∀ cfg c inp cl arr rest, s.active = .host → s.pending = .run cfg c inp cl arr :: rest → cfg.wf = false →
      step s = .refused .illFormedConfig)

/-- R30, R34, R35, R36, R74, R281: what a requested operation starts with. (That requests wait in a list is the model's
choice, log 5; that a run starts with an engine cleared of the last run is log 8.) -/
def Obligations.OperationsStartFromTheirStartValues : Prop :=
  ∀ (s : State) (cfg : Config) (c : Carrier) (rest : List Operation), s.active = .host → cfg.wf = true → c.wf = true →
    (∀ ts, s.pending = .inject cfg ts (some c) :: rest →
      step s = .next { s with
        pending := rest, cfg := cfg, carrier := c, active := .encoder,
        encoder := ⟨ts, [], (basePixel cfg c).getD cfg.sentinel, 0⟩ }) ∧
    (∀ inp cl arr, s.pending = .run cfg (some c) inp cl arr :: rest →
      step s = .next { s with
        pending := rest, cfg := cfg, carrier := c, active := .decoder,
        decoder := ⟨(basePixel cfg c).getD cfg.sentinel, none, 0, []⟩, input := inp, closed := cl, arrivals := arr,
        prog := [], jt := [], ip := 0, dp := 0, tape := [], inCursor := 0, out := [], steps := 0,
        status := .running })

/-- R181, R187, R284: an ended engine has no step: the run returns its status and output, and the engine's registers and
tape stay; with no operation in progress and none requested, nothing changes (a step that changes nothing is log 7). -/
def Obligations.EndedEngineOnlyReturnsItsResult : Prop :=
  ∀ s : State,
    (s.active = .engine → s.cfg.wf = true → s.status ≠ .running →
      step s = .next (s.finish (.ran s.status s.out))) ∧
    (s.active = .host → s.pending = [] → step s = .next s)

/-! ### The engine's step -/

/-- R183, R184, R186: a running engine below its limit whose instruction does not hold performs the instruction it fetches,
and counts it unless it raised. -/
def Obligations.StepRunsTheFetchedInstruction : Prop :=
  ∀ (s : State) (t : Token), Fetches s t → ¬(t = .input ∧ SourceWaits s) →
    (∀ s', exec t.toInstr s = .next s' → (∀ e, s'.status ≠ .faulted e) →
      step s = .next { s' with steps := s'.steps + 1 }) ∧
    (∀ s' e, exec t.toInstr s = .next s' → s'.status = .faulted e → step s = .next s') ∧
    (∀ f, exec t.toInstr s = .fault f → step s = .fault f)

/-- The placing of one instruction (log 4; log 11 for a word that is not 32 bits long): a table word's token is what the
very next step fetches and runs, and the continuation marker is the pixel the very next step meets. -/
def Obligations.PlacedWordIsRunNext : Prop :=
  ∀ (s : State) (nbits w : Nat), s.cfg.wf = true → BelowLimit s →
    (∀ t, decodeTableWord nbits w = some t.toInstr →
      Fetches (s.withFetchWord nbits w) t ∧ ∃ p j i, s.withFetchWord nbits w =
        { s with active := .engine, prog := p, jt := j, ip := i, status := .running }) ∧
    (decodeTableWord nbits w = some .continuation →
      step (s.withFetchWord nbits w) = exec .continuation (s.withFetchWord nbits w))

/-- R182, R192, R257: a running engine that has reached its limit raises StepLimitExceeded with `ip` and `steps`, whatever
instruction stands at `ip`, and changes nothing but `status`. -/
def Obligations.StepLimitIsCheckedFirst : Prop :=
  ∀ (s : State) (l : Nat), s.active = .engine → s.cfg.wf = true → s.status = .running → s.cfg.stepLimit = some l →
    l ≤ s.steps → step s = .next { s with status := .faulted (.stepLimitExceeded s.ip s.steps) }

/-- R188, R44: an Input that finds no byte and an open source holds: no register, cell or counter changes. What lifts the
hold is the HOST appending a byte or closing the source. (That the HOST's next action of the schedule lands in that very
step is the model's choice, log 6.) -/
def Obligations.InputHoldsUntilTheHostActs : Prop :=
  ∀ s : State, Fetches s .input → SourceWaits s →
    exec .input s = .next s ∧
    (s.arrivals = [] → step s = .next s) ∧
    (∀ b rest, s.arrivals = .byte b :: rest → step s = .next { s with input := s.input ++ [b], arrivals := rest }) ∧
    (∀ rest, s.arrivals = .close :: rest → step s = .next { s with closed := true, arrivals := rest })

/-- R190: a step that does not hold computes the same whether a byte that the HOST appends, or its closing of the source,
lands before or after it; and a run computes the same whether its schedule of bytes and closing lands action by action, as
it holds, or all at once before it goes on: what it reaches, the other run reaches in no more steps. (That a scheduled
action lands only in a hold is the model's choice, log 6; as long as no answer has been added, the run has not returned.) -/
def Obligations.ArrivalTimeDoesNotChangeTheRun : Prop :=
  (∀ s s' : State, s.active = .engine → s.closed = false → ¬(s.prog[s.ip]? = some .input ∧ SourceWaits s) →
    step s = .next s' →
    (∀ b, step { s with input := s.input ++ [b] } = .next { s' with input := s'.input ++ [b] }) ∧
    step { s with closed := true } = .next { s' with closed := true }) ∧
  (∀ (s t : State) (n : Nat), s.active = .engine → Host.Core.run core n s = .next t → t.responses = s.responses →
    ∃ m, m ≤ n ∧ Host.Core.run core m s.landed = .next t.landed)

/-- R192, R251, R252: an instruction that raises changes `status` alone, and only MoveLeft and MoveRight raise, with the
information R252 lists. -/
def Obligations.RaisingInstructionChangesOnlyStatus : Prop :=
  ∀ (s s' : State) (t : Token) (e : Err), s.status = .running → exec t.toInstr s = .next s' → s'.status = .faulted e →
    s' = { s with status := .faulted e } ∧
    ((t = .moveLeft ∧ e = .tapeUnderflow s.ip) ∨ (t = .moveRight ∧ e = .tapeOverflow s.ip s.dp))

/-- R43, R62, R74, R75, R34: no instruction writes the program store, the jump table, the carrier, CFG or the input source,
and no cell but the current one. -/
def Obligations.InstructionsWriteOnlyTheEnginesOwnState : Prop :=
  ∀ (s s' : State) (t : Token), exec t.toInstr s = .next s' →
    (∃ ip dp tape cur out st, s' = { s with ip := ip, dp := dp, tape := tape, inCursor := cur, out := out, status := st }) ∧
    ∀ a, a ≠ s.dp → Memory.read s'.tape a = Memory.read s.tape a

/-- R185: the instruction pointer after an instruction that neither raised, held nor halted is `ip + 1`, or the partner of
the bracket at `ip`. -/
def Obligations.InstructionPointerAdvancesByOneOrJumps : Prop :=
  ∀ (s s' : State) (t : Token), s.status = .running → ¬(t = .input ∧ SourceWaits s) → exec t.toInstr s = .next s' →
    (s'.status = .running ∧ s'.ip = s.ip + 1) ∨
    (s'.status = .running ∧ t = .loopOpen ∧ Memory.read s.tape s.dp = 0 ∧ JumpTable.target s.jt s.ip = some s'.ip) ∨
    (s'.status = .running ∧ t = .loopClose ∧ Memory.read s.tape s.dp ≠ 0 ∧ JumpTable.target s.jt s.ip = some s'.ip) ∨
    (s'.status ≠ .running ∧ s'.ip = s.ip)

/-! ### The instructions: result, frame and completion -/

/-- R200: MoveRight, in the middle of the tape and at the end of a bounded one. -/
def Obligations.MoveRightMovesOneCell : Prop :=
  ∀ s : State,
    ((∀ n, s.cfg.tapeCells = some n → s.dp + 1 < n) →
      exec .moveRight s = .next { s with dp := s.dp + 1, ip := s.ip + 1 }) ∧
    (∀ n, s.cfg.tapeCells = some n → n ≤ s.dp + 1 →
      exec .moveRight s = .next { s with status := .faulted (.tapeOverflow s.ip s.dp) })

/-- R201: MoveLeft, and its two policies at cell 0. -/
def Obligations.MoveLeftMovesOneCellOrUnderflows : Prop :=
  ∀ s : State,
    (0 < s.dp → exec .moveLeft s = .next { s with dp := s.dp - 1, ip := s.ip + 1 }) ∧
    (s.dp = 0 → s.cfg.underflowPolicy = .fault →
      exec .moveLeft s = .next { s with status := .faulted (.tapeUnderflow s.ip) }) ∧
    (s.dp = 0 → s.cfg.underflowPolicy = .clamp → exec .moveLeft s = .next { s with ip := s.ip + 1 })

/-- R210, R212: Increment adds 1 modulo 256 to the current cell and to no other, and nothing else changes but `ip`. -/
def Obligations.IncrementAddsOneModulo256 : Prop :=
  ∀ s : State, CellExists s →
    ∃ m, exec .increment s = .next { s with tape := m, ip := s.ip + 1 } ∧
      (Memory.read m s.dp).toNat = ((Memory.read s.tape s.dp).toNat + 1) % 256 ∧
      ∀ a, a ≠ s.dp → Memory.read m a = Memory.read s.tape a

/-- R211, R212: Decrement subtracts 1 modulo 256. -/
def Obligations.DecrementSubtractsOneModulo256 : Prop :=
  ∀ s : State, CellExists s →
    ∃ m, exec .decrement s = .next { s with tape := m, ip := s.ip + 1 } ∧
      ((Memory.read m s.dp).toNat : Int) = (((Memory.read s.tape s.dp).toNat : Int) - 1) % 256 ∧
      ∀ a, a ≠ s.dp → Memory.read m a = Memory.read s.tape a

/-- R220: Output appends the current cell to the output and changes nothing else but `ip`. -/
def Obligations.OutputAppendsTheCell : Prop :=
  ∀ s : State, CellExists s →
    exec .output s = .next { s with out := s.out ++ [Memory.read s.tape s.dp], ip := s.ip + 1 }

/-- R221: Input, for every answer of the poll and every policy. -/
def Obligations.InputReadsOneByteOrFollowsThePolicy : Prop :=
  ∀ s : State,
    (∀ b, CellExists s → s.input[s.inCursor]? = some b →
      ∃ m, exec .input s = .next { s with tape := m, inCursor := s.inCursor + 1, ip := s.ip + 1 } ∧
        Memory.read m s.dp = b ∧ ∀ a, a ≠ s.dp → Memory.read m a = Memory.read s.tape a) ∧
    (s.input.length ≤ s.inCursor → s.closed = true →
      (s.cfg.eofPolicy = .zero → CellExists s →
        ∃ m, exec .input s = .next { s with tape := m, ip := s.ip + 1 } ∧
          Memory.read m s.dp = 0 ∧ ∀ a, a ≠ s.dp → Memory.read m a = Memory.read s.tape a) ∧
      (s.cfg.eofPolicy = .unchanged → exec .input s = .next { s with ip := s.ip + 1 }) ∧
      (s.cfg.eofPolicy = .terminate → exec .input s = .next { s with status := .halted })) ∧
    (SourceWaits s → exec .input s = .next s)

/-- R230: LoopOpen jumps to its partner when the current cell is 0, and else goes on. -/
def Obligations.LoopOpenSkipsOnZero : Prop :=
  ∀ s : State, CellExists s →
    (∀ j, Memory.read s.tape s.dp = 0 → JumpTable.target s.jt s.ip = some j →
      exec .loopOpen s = .next { s with ip := j }) ∧
    (Memory.read s.tape s.dp ≠ 0 → exec .loopOpen s = .next { s with ip := s.ip + 1 })

/-- R231: LoopClose jumps to its partner when the current cell is not 0, and else goes on. -/
def Obligations.LoopCloseRepeatsOnNonzero : Prop :=
  ∀ s : State, CellExists s →
    (∀ j, Memory.read s.tape s.dp ≠ 0 → JumpTable.target s.jt s.ip = some j →
      exec .loopClose s = .next { s with ip := j }) ∧
    (Memory.read s.tape s.dp = 0 → exec .loopClose s = .next { s with ip := s.ip + 1 })

/-- R232: EndOfProgram halts; `ip` stays, and nothing but `status` changes. -/
def Obligations.EndOfProgramHalts : Prop :=
  ∀ s : State, exec .endOfProgram s = .next { s with status := .halted }

/-- Where the instructions stop by name (log 9, in states that no run reaches): on a cell outside a bounded tape, and where
a bracket that jumps has no partner. -/
def Obligations.InstructionsStopOutsideTheirDomain : Prop :=
  ∀ s : State,
    (∀ n, s.cfg.tapeCells = some n → n ≤ s.dp →
      exec .increment s = .fault .cellOutsideTape ∧ exec .decrement s = .fault .cellOutsideTape ∧
      exec .output s = .fault .cellOutsideTape ∧ exec .loopOpen s = .fault .cellOutsideTape ∧
      exec .loopClose s = .fault .cellOutsideTape ∧
      (s.inCursor < s.input.length → exec .input s = .fault .cellOutsideTape)) ∧
    (CellExists s → JumpTable.target s.jt s.ip = none →
      (Memory.read s.tape s.dp = 0 → exec .loopOpen s = .fault .jumpTargetUndefined) ∧
      (Memory.read s.tape s.dp ≠ 0 → exec .loopClose s = .fault .jumpTargetUndefined))

/-! ### Loops -/

/-- R233: a loop entered on a zero cell is left after two steps, at the instruction after its LoopClose. -/
def Obligations.LoopOnZeroIsSkippedInTwoSteps : Prop :=
  ∀ (s : State) (i : Nat), Fetches s .loopOpen → CellExists s → JumpTable.target s.jt s.ip = some i →
    s.prog[i]? = some .loopClose → (∀ l, s.cfg.stepLimit = some l → s.steps + 1 < l) → Memory.read s.tape s.dp = 0 →
    Host.Core.run core 2 s = .next { s with ip := i + 1, steps := s.steps + 2 }

/-- R233: at the LoopClose, a nonzero cell re-enters the loop at `j`, whose LoopOpen then goes on into the body. -/
def Obligations.LoopOnNonzeroIsReentered : Prop :=
  ∀ (s : State) (j : Nat), Fetches s .loopClose → CellExists s → JumpTable.target s.jt s.ip = some j →
    s.prog[j]? = some .loopOpen → (∀ l, s.cfg.stepLimit = some l → s.steps + 1 < l) → Memory.read s.tape s.dp ≠ 0 →
    Host.Core.run core 2 s = .next { s with ip := j + 1, steps := s.steps + 2 }

/-- R230, R290: `[]` on a nonzero cell never ends without a step limit. -/
def Obligations.EmptyLoopOnNonzeroNeverEnds : Prop :=
  ∀ (s : State) (n : Nat), Fetches s .loopOpen → CellExists s → s.cfg.stepLimit = none →
    s.prog[s.ip + 1]? = some .loopClose → JumpTable.target s.jt (s.ip + 1) = some s.ip → Memory.read s.tape s.dp ≠ 0 →
    Host.Core.run core (2 * n) s = .next { s with steps := s.steps + 2 * n }

/-! ### Errors and the whole machine -/

/-- R251: the codes of the seven error kinds and of success, as the operation's answer reports them. -/
def Obligations.ErrorKindsHaveTheirCodes : Prop :=
  (∀ n a r k i p ip st d, Err.code (.insufficientCapacity n a) = 1 ∧ Err.code (.corruptStream r k i) = 2 ∧
    Err.code (.unmatchedBracket p) = 3 ∧ Err.code (.tapeUnderflow ip) = 4 ∧ Err.code (.stepLimitExceeded ip st) = 5 ∧
    Err.code (.invalidTokenStream i) = 6 ∧ Err.code (.tapeOverflow ip d) = 7) ∧
  (∀ e out, Response.code .injected = 0 ∧ Response.code (.ran .halted out) = 0 ∧
    Response.code (.injectFailed e) = e.code ∧ Response.code (.runFailed e) = e.code ∧
    Response.code (.ran (.faulted e) out) = e.code)

/-- R47, R281: the engine's registers and every cell after reset. -/
def Obligations.ResetStateOfTheEngine : Prop :=
  State.reset.ip = 0 ∧ State.reset.dp = 0 ∧ (∀ a, Memory.read State.reset.tape a = 0) ∧ State.reset.inCursor = 0 ∧
  State.reset.out = [] ∧ State.reset.steps = 0 ∧ State.reset.status = .running

/-- The invariant holds after reset. (Its clauses on CFG, the carrier and the idle working states rest on values the model
chose for reset, logs 1, 2 and 3; R281 says that CFG and the carrier are not reset.) -/
def Obligations.ResetMeetsTheInvariant : Prop := Inv State.reset

/-- Every step keeps the invariant: the tape's canonical form and bounds, the carrier's size, the configuration, the shape
of the program and its jump table (R38, R166), `ip` inside the program (R189), the current cell (R62), the cursor (R221)
and the step limit (R182). (That the working state of an agent which is not active is idle is the model's choice, log 3.) -/
def Obligations.EveryStepKeepsTheInvariant : Prop :=
  ∀ s t : State, Inv s → step s = .next t → Inv t

/-- R183, R256: from a state that meets the invariant no step faults, and a step is refused only where the HOST requests an
operation with an ill-formed configuration (R8) or a carrier without its `W * H` pixels (R285). (The two refusals,
`TAPE_CELLS = some 0` among the ill-formed configurations, are the model's reading, log 10; the invariant's idle working
states are log 3.) -/
def Obligations.NoStepFaultsUnderTheInvariant : Prop :=
  ∀ s : State, Inv s →
    (∀ f, step s ≠ .fault f) ∧
    (∀ r, step s = .refused r → s.active = .host ∧
      ((r = .illFormedConfig ∧ ∃ op rest, s.pending = op :: rest ∧
          ((∃ cfg ts c, op = .inject cfg ts c ∧ cfg.wf = false) ∨
           (∃ cfg c inp cl arr, op = .run cfg c inp cl arr ∧ cfg.wf = false))) ∨
       (r = .malformedCarrier ∧ ∃ op rest, s.pending = op :: rest ∧
          ((∃ cfg ts c, op = .inject cfg ts (some c) ∧ c.wf = false) ∨
           (∃ cfg c inp cl arr, op = .run cfg (some c) inp cl arr ∧ c.wf = false)))))

/-- R182, R290: with a step limit `L` and a finite input source, a run ends: after at most `L - steps` further instructions
and the step-limit check, `status` is no longer Running. (That the ENGINE is still the active agent there, because the
return to the HOST is a step of its own, is the model's choice, log 8; the invariant's idle working states are log 3.) -/
def Obligations.StepLimitEndsEveryRun : Prop :=
  ∀ (s : State) (l : Nat), Inv s → s.active = .engine → s.status = .running → s.closed = true →
    s.cfg.stepLimit = some l →
    ∃ n t, n ≤ l - s.steps + 1 ∧ Host.Core.run core n s = .next t ∧ t.active = .engine ∧ t.status ≠ .running ∧ t.steps ≤ l
end

