-- ==== Sys2Proof/Laws/Encoding.lean ====
section
/-! SUPPORT. The laws of the encoding: pixel arithmetic, the delta table's look-up, packed words, tokens and
instructions. -/

namespace Sys2Proof

/-- The zero delta says that two pixels are equal. -/
theorem px_sub_eq_zero (p d : Pixel) : p.sub d = Pixel.zero ↔ p = d := by
  obtain ⟨a, b, c, e⟩ := p
  obtain ⟨a', b', c', e'⟩ := d
  simp only [Pixel.sub, Pixel.zero, Pixel.mk.injEq]
  constructor
  · rintro ⟨h1, h2, h3, h4⟩; refine ⟨?_, ?_, ?_, ?_⟩ <;> bv_omega
  · rintro ⟨h1, h2, h3, h4⟩; subst_vars; simp

/-- A pixel less itself is the zero delta. -/
theorem px_sub_self (p : Pixel) : p.sub p = Pixel.zero := (px_sub_eq_zero p p).2 rfl

/-- `⊖` takes a delta back. -/
theorem px_add_sub_self (p d : Pixel) : (p.add d).sub p = d := by
  obtain ⟨a, b, c, e⟩ := p
  obtain ⟨a', b', c', e'⟩ := d
  simp only [Pixel.add, Pixel.sub, Pixel.mk.injEq]
  refine ⟨?_, ?_, ?_, ?_⟩ <;> bv_omega

/-- The alphabet lists every token. -/
theorem Token.mem_all (t : Token) : t ∈ Token.all := by cases t <;> decide

/-- A well-formed table gives no instruction the zero vector. -/
theorem vectorFor_ne_zero {dt : DeltaTable} (h : dt.wf = true) (t : Token) : dt.vectorFor t ≠ Pixel.zero := by
  simp only [DeltaTable.wf, DeltaTable.noZero, Bool.and_eq_true, List.all_eq_true, decide_eq_true_eq] at h
  exact h.1 t (Token.mem_all t)

/-- A well-formed table gives different instructions different vectors. -/
theorem vectorFor_injective {dt : DeltaTable} (h : dt.wf = true) {t u : Token} (e : dt.vectorFor t = dt.vectorFor u) :
    t = u := by
  simp only [DeltaTable.wf, DeltaTable.distinct, Bool.and_eq_true, List.all_eq_true, decide_eq_true_eq] at h
  by_contra hne
  exact h.2 t (Token.mem_all t) u (Token.mem_all u) hne e

/-- `instructionFor` finds the token of a vector. -/
theorem instructionFor_vectorFor {dt : DeltaTable} (h : dt.wf = true) (t : Token) :
    dt.instructionFor (dt.vectorFor t) = some t := by
  unfold DeltaTable.instructionFor
  cases hf : Token.all.find? fun u => decide (dt.vectorFor u = dt.vectorFor t) with
  | none =>
    have := List.find?_eq_none.1 hf t (Token.mem_all t)
    simp at this
  | some u =>
    have := List.find?_some hf
    simp only [decide_eq_true_eq] at this
    rw [vectorFor_injective h this]

/-- What `instructionFor` finds has the vector looked for. -/
theorem instructionFor_some {dt : DeltaTable} {d t} (h : dt.instructionFor d = some t) : dt.vectorFor t = d := by
  simpa using List.find?_some h

/-- When `instructionFor` finds nothing. -/
theorem instructionFor_none {dt : DeltaTable} {d} : dt.instructionFor d = none ↔ ∀ t, dt.vectorFor t ≠ d := by
  unfold DeltaTable.instructionFor
  rw [List.find?_eq_none]
  simp [Token.mem_all]

/-- Under a well-formed table `instructionFor` finds exactly the token whose vector it is given. -/
theorem instructionFor_iff {dt : DeltaTable} (h : dt.wf = true) {d t} : dt.instructionFor d = some t ↔ d = dt.vectorFor t := by
  constructor
  · intro h'; exact (instructionFor_some h').symm
  · rintro rfl; exact instructionFor_vectorFor h t

/-- A vector of a well-formed table decodes to its instruction. -/
theorem decodeDelta_vectorFor {dt : DeltaTable} (h : dt.wf = true) (t : Token) :
    decodeDelta dt (dt.vectorFor t) = .ok t.toInstr := by
  simp [decodeDelta, vectorFor_ne_zero h, instructionFor_vectorFor h]

/-- The packed word keeps all four channels. -/
theorem unpack_pack (p : Pixel) : Pixel.unpack p.pack = p := by
  obtain ⟨a,b,c,e⟩ := p
  simp only [Pixel.unpack, Pixel.pack, Pixel.mk.injEq]
  refine ⟨?_,?_,?_,?_⟩ <;>
  · ext i hi
    simp only [BitVec.getElem_extractLsb', BitVec.getLsbD_append]
    interval_cases i <;> simp

/-- A word is the packing of its channels. -/
theorem pack_unpack (w : BitVec 32) : (Pixel.unpack w).pack = w := by
  simp only [Pixel.unpack, Pixel.pack]
  ext i hi
  simp only [BitVec.getElem_append, BitVec.getElem_extractLsb']
  interval_cases i <;> simp

/-- `toInstr` undoes `token?`. -/
theorem toInstr_token? {i : Instr} {t : Token} (h : i.token? = some t) : t.toInstr = i := by
  cases i <;> cases h <;> rfl

/-- `token?` undoes `toInstr`. -/
theorem token?_toInstr (t : Token) : t.toInstr.token? = some t := by cases t <;> rfl

/-- Only the continuation marker is no instruction. -/
theorem token?_none {i : Instr} : i.token? = none ↔ i = .continuation := by cases i <;> simp [Instr.token?]

/-- Different tokens are different instructions. -/
theorem toInstr_injective {t u : Token} (h : t.toInstr = u.toInstr) : t = u := by
  have := congrArg Instr.token? h; simpa [token?_toInstr] using this

end Sys2Proof
end

