-- ==== Sys2Proof/Laws/Decode.lean ====
section
/-! SUPPORT. The laws of Decode: everything one pixel can do, and what the loop over the pixels answers. -/

namespace Sys2Proof.Machine

/-- `new` is what the pixels stand for, with `prev` and `pt` the pixel and the token before them. -/
def Follows (dt : DeltaTable) : List Pixel → Pixel → Option Token → List Token → Prop
  | _, _, _, [] => False
  | [], _, _, _ :: _ => False
  | cur :: l, prev, pt, t :: new =>
    (cur.sub prev = dt.vectorFor t ∨ (cur = prev ∧ pt = some t)) ∧
    (if t = .endOfProgram then new = [] else Follows dt l cur (some t) new)

/-- One pixel of the decode loop, by the equality of pixels. -/
theorem pixel_eq (dt w cur) : DecoderWork.pixel dt w cur =
    if cur = w.prev then w.continuation
    else match dt.instructionFor (cur.sub w.prev) with
      | some t => w.accept t cur
      | none => .failed (.unknownDelta (cur.sub w.prev)) w.k := by
  unfold DecoderWork.pixel decodeDelta
  by_cases h : cur = w.prev
  · have : cur.sub w.prev = Pixel.zero := (px_sub_eq_zero _ _).2 h
    rw [if_pos this, if_pos h]; rfl
  · have : cur.sub w.prev ≠ Pixel.zero := fun e => h ((px_sub_eq_zero _ _).1 e)
    simp only [this, h, if_false]
    cases dt.instructionFor (cur.sub w.prev) with
    | none => rfl
    | some t => simp [token?_toInstr]

/-- A pixel that stands for a token is accepted as it. -/
theorem pixel_accept {dt : DeltaTable} (h : dt.wf = true) (w : DecoderWork) (cur : Pixel) (t : Token)
    (ht : cur.sub w.prev = dt.vectorFor t ∨ (cur = w.prev ∧ w.prevT = some t)) :
    w.pixel dt cur = w.accept t cur := by
  rw [pixel_eq]
  rcases ht with ht | ⟨h1, h2⟩
  · have : cur ≠ w.prev := by
      intro e; rw [(px_sub_eq_zero _ _).2 e] at ht; exact vectorFor_ne_zero h t ht.symm
    rw [if_neg this, (instructionFor_iff h).2 ht]
  · rw [if_pos h1]; simp [DecoderWork.continuation, h2, h1]

/-- Everything one pixel of the decode loop can do. -/
theorem pixel_cases (dt : DeltaTable) (w : DecoderWork) (cur : Pixel) :
    (∃ t, (cur.sub w.prev = dt.vectorFor t ∨ (cur = w.prev ∧ w.prevT = some t)) ∧ w.pixel dt cur = w.accept t cur) ∨
    (cur = w.prev ∧ w.prevT = none ∧ w.pixel dt cur = .failed .leadingContinuation w.k) ∨
    (cur ≠ w.prev ∧ (∀ t, dt.vectorFor t ≠ cur.sub w.prev) ∧
      w.pixel dt cur = .failed (.unknownDelta (cur.sub w.prev)) w.k) := by
  rw [pixel_eq]
  by_cases h : cur = w.prev
  · rw [if_pos h]
    cases hp : w.prevT with
    | none => right; left; exact ⟨h, rfl, by simp [DecoderWork.continuation, hp]⟩
    | some t => left; exact ⟨t, .inr ⟨h, rfl⟩, by simp [DecoderWork.continuation, hp, h]⟩
  · rw [if_neg h]
    cases hi : dt.instructionFor (cur.sub w.prev) with
    | none => right; right; exact ⟨h, instructionFor_none.1 hi, rfl⟩
    | some t => left; exact ⟨t, .inl (instructionFor_some hi).symm, rfl⟩

/-- What the pixels stand for is what they decode to. -/
theorem decodePixels_of_follows {dt : DeltaTable} (h : dt.wf = true) (l : List Pixel) (w : DecoderWork) (new : List Token)
    (hf : Follows dt l w.prev w.prevT new) : decodePixels dt l w = .done (w.toks ++ new) := by
  induction new generalizing l w with
  | nil => simp [Follows] at hf
  | cons t new ih =>
    cases l with
    | nil => simp [Follows] at hf
    | cons cur l =>
      obtain ⟨h1, h2⟩ := hf
      rw [decodePixels, pixel_accept h w cur t h1]
      unfold DecoderWork.accept
      split_ifs at h2 ⊢ with he
      · simp [h2]
      · have := ih l ⟨cur, some t, w.k + 1, w.toks ++ [t]⟩ h2
        simp [this]

/-- What pixels decode to is what they stand for. -/
theorem follows_of_decodePixels (dt : DeltaTable) (l : List Pixel) (w : DecoderWork) (toks : List Token)
    (hd : decodePixels dt l w = .done toks) : ∃ new, toks = w.toks ++ new ∧ Follows dt l w.prev w.prevT new := by
  induction l generalizing w with
  | nil => simp [decodePixels] at hd
  | cons cur l ih =>
    rw [decodePixels] at hd
    rcases pixel_cases dt w cur with ⟨t, h1, h2⟩ | ⟨-, -, h2⟩ | ⟨-, -, h2⟩ <;> rw [h2] at hd
    · unfold DecoderWork.accept at hd
      split_ifs at hd with he
      · simp at hd
        exact ⟨[t], hd.symm, h1, by simp [he]⟩
      · obtain ⟨new, h3, h4⟩ := ih _ hd
        exact ⟨t :: new, by simp [h3], h1, by simp [he, h4]⟩
    · simp at hd
    · simp at hd

/-- `EndsOnce`, token by token. -/
theorem endsOnce_cons {t : Token} {l} : EndsOnce (t :: l) ↔ if t = .endOfProgram then l = [] else EndsOnce l := by
  split_ifs with h
  · subst h
    constructor
    · rintro ⟨b, hb, hn⟩
      cases b with
      | nil => simpa using hb
      | cons x b => simp at hb; simp [hb.1] at hn
    · rintro rfl; exact ⟨[], rfl, by simp⟩
  · constructor
    · rintro ⟨b, hb, hn⟩
      cases b with
      | nil => simp at hb; exact absurd hb.1 h
      | cons x b => simp at hb hn; exact ⟨b, hb.2, hn.2⟩
    · rintro ⟨b, rfl, hn⟩
      exact ⟨t :: b, rfl, by simp [hn]; exact fun e => h e.symm⟩

/-- `Follows`, offset by offset. -/
theorem follows_iff (dt : DeltaTable) (l : List Pixel) (prev : Pixel) (pt : Option Token) (new : List Token) :
    Follows dt l prev pt new ↔ EndsOnce new ∧ ∀ k t, new[k]? = some t →
      ∃ cur pv, l[k]? = some cur ∧ (if k = 0 then some prev else l[k - 1]?) = some pv ∧
        (cur.sub pv = dt.vectorFor t ∨ (cur = pv ∧ (if k = 0 then pt else new[k - 1]?) = some t)) := by
  induction new generalizing l prev pt with
  | nil => simp [Follows, EndsOnce]
  | cons t new ih =>
    cases l with
    | nil =>
      simp only [Follows, false_iff]
      rintro ⟨-, h⟩
      obtain ⟨cur, pv, h1, -⟩ := h 0 t rfl
      simp at h1
    | cons cur l =>
      simp only [Follows, endsOnce_cons]
      by_cases he : t = .endOfProgram
      · simp only [he, if_true]
        constructor
        · rintro ⟨h1, rfl⟩
          refine ⟨rfl, ?_⟩
          intro k u hk
          cases k with
          | zero => simp at hk; subst hk; exact ⟨cur, prev, rfl, rfl, by simpa using h1⟩
          | succ k => simp at hk
        · rintro ⟨rfl, h⟩
          obtain ⟨c, pv, h1, h2, h3⟩ := h 0 _ rfl
          simp at h1 h2; subst h1; subst h2
          exact ⟨by simpa using h3, rfl⟩
      · simp only [he, if_false, ih]
        constructor
        · rintro ⟨h1, h2, h3⟩
          refine ⟨h2, ?_⟩
          intro k u hk
          cases k with
          | zero => simp at hk; subst hk; exact ⟨cur, prev, rfl, rfl, by simpa using h1⟩
          | succ k =>
            simp at hk
            obtain ⟨c, pv, h4, h5, h6⟩ := h3 k u hk
            refine ⟨c, pv, by simpa using h4, ?_, ?_⟩
            · cases k with
              | zero => simpa using h5
              | succ k => simpa using h5
            · cases k with
              | zero => simpa using h6
              | succ k => simpa using h6
        · rintro ⟨h2, h⟩
          refine ⟨?_, h2, ?_⟩
          · obtain ⟨c, pv, h1, h2, h3⟩ := h 0 _ rfl
            simp at h1 h2; subst h1; subst h2
            simpa using h3
          · intro k u hk
            obtain ⟨c, pv, h4, h5, h6⟩ := h (k + 1) u (by simpa using hk)
            refine ⟨c, pv, by simpa using h4, ?_, ?_⟩
            · cases k with
              | zero => simpa using h5
              | succ k => simpa using h5
            · cases k with
              | zero => simpa using h6
              | succ k => simpa using h6

/-- The decode loop ends. -/
theorem decodePixels_not_more (dt l w w') : decodePixels dt l w ≠ .more w' := by
  induction l generalizing w with
  | nil => simp [decodePixels]
  | cons cur l ih =>
    rw [decodePixels]
    split
    · exact ih _
    · simp
    · simp

/-- When Decode succeeds. -/
theorem decode_ok_iff {cfg : Config} {c : Carrier} {toks} :
    decode cfg c = .ok toks ↔ decodePixels cfg.deltaTable (c.pix.drop cfg.origin) (DecoderWork.start cfg c) = .done toks := by
  unfold decode decodeFrom
  simp only [DecoderWork.start, Nat.add_zero]
  split <;> simp_all

/-- Pixels after the `EndOfProgram` do not matter. -/
theorem decodePixels_prefix (dt : DeltaTable) (l l' : List Pixel) (w : DecoderWork) (toks : List Token)
    (hd : decodePixels dt l w = .done (w.toks ++ toks)) (hl : ∀ i, i < toks.length → l'[i]? = l[i]?) :
    decodePixels dt l' w = .done (w.toks ++ toks) := by
  induction l generalizing w toks l' with
  | nil => simp [decodePixels] at hd
  | cons cur l ih =>
    rw [decodePixels] at hd
    rcases pixel_cases dt w cur with ⟨t, h1, h2⟩ | ⟨-, -, h2⟩ | ⟨-, -, h2⟩ <;> rw [h2] at hd
    · have hne : 0 < toks.length := by
        unfold DecoderWork.accept at hd
        split_ifs at hd with he
        · simp at hd; simp [← hd]
        · obtain ⟨new, h3, h4⟩ := follows_of_decodePixels _ _ _ _ hd
          simp at h3; simp [h3]
      cases l' with
      | nil => have := hl 0 hne; simp at this
      | cons c2 l' =>
        have e := hl 0 hne
        simp at e; subst e
        rw [decodePixels, h2]
        unfold DecoderWork.accept at hd ⊢
        split_ifs at hd ⊢ with he
        · exact hd
        · obtain ⟨new, h3, h4⟩ := follows_of_decodePixels _ _ _ _ hd
          simp at h3; subst h3
          have := ih l' ⟨c2, some t, w.k + 1, w.toks ++ [t]⟩ new (by simpa using hd) (by
            intro i hi
            simpa using hl (i + 1) (by simpa using hi))
          simpa using this
    · simp at hd
    · simp at hd

/-- A stream cut off before its `EndOfProgram` is truncated. -/
theorem decodePixels_take (dt : DeltaTable) (l : List Pixel) (w : DecoderWork) (toks : List Token)
    (hd : decodePixels dt l w = .done (w.toks ++ toks)) (m : Nat) (hm : m < toks.length) :
    decodePixels dt (l.take m) w = .failed .truncated (w.k + m) := by
  induction l generalizing w toks m with
  | nil => simp [decodePixels] at hd
  | cons cur l ih =>
    cases m with
    | zero => simp [decodePixels]
    | succ m =>
      rw [List.take_succ_cons, decodePixels]
      rw [decodePixels] at hd
      rcases pixel_cases dt w cur with ⟨t, h1, h2⟩ | ⟨-, -, h2⟩ | ⟨-, -, h2⟩ <;> rw [h2] at hd
      · rw [h2]
        unfold DecoderWork.accept at hd ⊢
        split_ifs at hd ⊢ with he
        · simp at hd; simp [← hd] at hm
        · obtain ⟨new, h3, h4⟩ := follows_of_decodePixels _ _ _ _ hd
          simp at h3; subst h3
          have := ih ⟨cur, some t, w.k + 1, w.toks ++ [t]⟩ new (by simpa using hd) m (by simpa using hm)
          simp only [this]; congr 1; omega
      · simp at hd
      · simp at hd

/-- Each token has its pixel. -/
theorem follows_length {dt l prev pt new} (h : Follows dt l prev pt new) : new.length ≤ l.length := by
  induction new generalizing l prev pt with
  | nil => simp
  | cons t new ih =>
    cases l with
    | nil => simp [Follows] at h
    | cons cur l =>
      obtain ⟨-, h⟩ := h
      split_ifs at h
      · simp [h]
      · simpa using ih h

/-- The start pixel depends on one pixel of the carrier. -/
theorem startPixel_congr {cfg : Config} {c c' : Carrier} (h : cfg.origin ≠ 0 → c'.pix[cfg.origin - 1]? = c.pix[cfg.origin - 1]?) :
    startPixel cfg c' = startPixel cfg c := by
  unfold startPixel basePixel Carrier.read
  split_ifs with h0
  · rfl
  · rw [h h0]

/-- Everything a failing decode says: the offset, the tokens that the pixels before it stand for, and the reason. -/
theorem decodePixels_failed (dt : DeltaTable) (l : List Pixel) (w : DecoderWork) (r : CorruptReason) (k : Nat)
    (hd : decodePixels dt l w = .failed r k) : ∃ j, k = w.k + j ∧
      (∃ new : List Token, new.length = j ∧ Token.endOfProgram ∉ new ∧ ∀ i t, new[i]? = some t →
        ∃ cur pv, l[i]? = some cur ∧ (if i = 0 then some w.prev else l[i - 1]?) = some pv ∧
          (cur.sub pv = dt.vectorFor t ∨ (cur = pv ∧ (if i = 0 then w.prevT else new[i - 1]?) = some t))) ∧
      (r = .truncated → j = l.length) ∧
      (r = .leadingContinuation → j = 0 ∧ w.prevT = none ∧ l[0]? = some w.prev) ∧
      (∀ d, r = .unknownDelta d → ∃ cur prev, l[j]? = some cur ∧ (if j = 0 then some w.prev else l[j-1]?) = some prev ∧
        d = cur.sub prev ∧ d ≠ Pixel.zero ∧ ∀ t, dt.vectorFor t ≠ d) := by
  induction l generalizing w with
  | nil =>
    simp [decodePixels] at hd
    obtain ⟨rfl, rfl⟩ := hd
    exact ⟨0, rfl, ⟨[], by simp⟩, by simp⟩
  | cons cur l ih =>
    rw [decodePixels] at hd
    rcases pixel_cases dt w cur with ⟨t, h1, h2⟩ | ⟨h0, h1, h2⟩ | ⟨h0, h1, h2⟩ <;> rw [h2] at hd
    · unfold DecoderWork.accept at hd
      split_ifs at hd with he
      obtain ⟨j, hj, ⟨new, hn, hne, hnew⟩, h3, h4, h5⟩ := ih _ hd
      refine ⟨j + 1, by simp at hj; omega, ⟨t :: new, by simp [hn], by simp [hne]; exact fun e => he e.symm, ?_⟩,
        fun e => by simp [h3 e], fun e => by simpa using (h4 e).2.1, ?_⟩
      · intro i u hi
        rcases i with _ | i
        · simp at hi; subst hi; exact ⟨cur, w.prev, rfl, rfl, by simpa using h1⟩
        · obtain ⟨c, pv, h6, h7, h8⟩ := hnew i u (by simpa using hi)
          exact ⟨c, pv, by simpa using h6, by cases i <;> simpa using h7, by cases i <;> simpa using h8⟩
      · intro d hr
        obtain ⟨c2, p, h6, h7, h8⟩ := h5 d hr
        refine ⟨c2, p, by simpa using h6, ?_, h8⟩
        cases j <;> simpa using h7
    · simp at hd; obtain ⟨rfl, rfl⟩ := hd
      exact ⟨0, rfl, ⟨[], by simp⟩, by simp, by simp [h1, h0], by simp⟩
    · simp at hd; obtain ⟨rfl, rfl⟩ := hd
      refine ⟨0, rfl, ⟨[], by simp⟩, by simp, by simp, ?_⟩
      intro d hr
      simp at hr; subst hr
      exact ⟨cur, w.prev, rfl, rfl, rfl, fun e => h0 ((px_sub_eq_zero _ _).1 e), h1⟩

/-- The decode loop of a decode that succeeds. -/
theorem decodeFrom_start_ok {cfg c toks} (h : decode cfg c = .ok toks) : decodeFrom cfg c (DecoderWork.start cfg c) = .done toks := by
  unfold decode at h; split at h <;> simp_all

/-- The decode loop of a decode that fails. -/
theorem decodeFrom_start_err {cfg c e} (h : decode cfg c = .error e) : ∃ r k, decodeFrom cfg c (DecoderWork.start cfg c) = .failed r k ∧ e = corruptErr cfg r k := by
  unfold decode at h; split at h
  · rename_i w hw; exact absurd hw (decodePixels_not_more _ _ _ _)
  · cases h
  · rename_i r k hk; cases h; exact ⟨r, k, hk, rfl⟩

end Sys2Proof.Machine
end

