-- ==== Sys2Proof/Laws/Encode.lean ====
section
/-! SUPPORT. The laws of Encode: what stacking does with one token, what the validity check accepts, and the emission as
one stretch of writes in closed form. -/

namespace Sys2Proof.Machine

/-- Stacking goes token by token. -/
theorem stack_snoc (ts : List Token) (t : Token) : stack (ts ++ [t]) = stackPush (stack ts) t := by
  simp [stack, List.foldl_append]

/-- Everything the joining of one token to the run list can do. -/
theorem stackPush_cases (runs : List EncodedRun) (t : Token) :
    (∃ init c, runs = init ++ [⟨t, c⟩] ∧ t.stackable = true ∧ stackPush runs t = init ++ [⟨t, c + 1⟩]) ∨
    ((∀ init r, runs = init ++ [r] → r.token = t → t.stackable = false) ∧ stackPush runs t = runs ++ [⟨t, 1⟩]) := by
  rcases List.eq_nil_or_concat runs with rfl | ⟨init, r, rfl⟩
  · right; simp [stackPush]
  · simp only [List.concat_eq_append]
    by_cases h : r.token = t ∧ t.stackable = true
    · left
      obtain ⟨h1, h2⟩ := h
      subst h1
      refine ⟨init, r.count, rfl, h2, ?_⟩
      simp [stackPush, h2]
    · right
      refine ⟨?_, by simp [stackPush, h]⟩
      intro init' r' he hr
      obtain ⟨-, he⟩ := List.append_inj' he rfl
      simp only [List.cons.injEq, and_true] at he
      subst he
      simpa [hr] using h

/-- Expansion goes run by run. -/
theorem expand_append (a b : List EncodedRun) : expand (a ++ b) = expand a ++ expand b := by simp [expand]

/-- A token that joins the run list is one more token of its expansion. -/
theorem expand_stackPush (runs : List EncodedRun) (t : Token) : expand (stackPush runs t) = expand runs ++ [t] := by
  rcases stackPush_cases runs t with ⟨init, c, rfl, -, h⟩ | ⟨-, h⟩ <;> rw [h]
  · simp [expand, List.replicate_succ']
  · simp [expand]

/-- Every run has a token. -/
theorem stack_counts (ts : List Token) : ∀ r ∈ stack ts, 1 ≤ r.count := by
  induction ts using List.reverseRecOn with
  | nil => simp [stack]
  | append_singleton ts t ih =>
    rw [stack_snoc]
    rcases stackPush_cases (stack ts) t with ⟨init, c, hr, -, h⟩ | ⟨-, h⟩ <;> rw [h] <;> intro r hm
    · rcases List.mem_append.1 hm with h1 | h1
      · exact ih r (by simp [hr, h1])
      · simp at h1; subst h1; simp
    · rcases List.mem_append.1 hm with h1 | h1
      · exact ih r h1
      · simp at h1; subst h1; simp

/-- The last run's token is the last token. -/
theorem stack_last {ts : List Token} {init : List EncodedRun} {r : EncodedRun} (h : stack ts = init ++ [r]) :
    ∃ ts', ts = ts' ++ [r.token] := by
  rcases List.eq_nil_or_concat ts with rfl | ⟨l, x, rfl⟩
  · simp [stack] at h
  · rw [List.concat_eq_append] at h ⊢
    rw [stack_snoc] at h
    refine ⟨l, ?_⟩
    rcases stackPush_cases (stack l) x with ⟨i, c, -, -, h2⟩ | ⟨-, h2⟩ <;>
    · rw [h2] at h
      have := (List.append_inj' h rfl).2
      simp at this
      rw [← this]

/-- Only the empty sequence has no runs. -/
theorem stack_eq_nil {ts : List Token} (h : stack ts = []) : ts = [] := by
  rcases List.eq_nil_or_concat ts with rfl | ⟨l, x, rfl⟩
  · rfl
  · rw [List.concat_eq_append, stack_snoc] at h
    rcases stackPush_cases (stack l) x with ⟨i, c, -, -, h2⟩ | ⟨-, h2⟩ <;> rw [h2] at h <;> simp at h

/-- In a valid token sequence the first `EndOfProgram` is the last token. -/
theorem endsOnce_findIdx {ts : List Token} (h : EndsOnce ts) :
    ts.findIdx (fun t => decide (t = .endOfProgram)) + 1 = ts.length := by
  obtain ⟨b, rfl, hb⟩ := h
  rw [List.findIdx_append]
  have : List.findIdx (fun t => decide (t = Token.endOfProgram)) b = b.length := by
    rw [List.findIdx_eq_length]
    intro x hx; simp; rintro rfl; exact hb hx
  simp [this]

/-- The validity check accepts exactly the sequences that end in their only `EndOfProgram`. -/
theorem invalid_none {ts : List Token} : invalidTokenIndex ts = none ↔ EndsOnce ts := by
  constructor
  · intro h
    unfold invalidTokenIndex at h
    simp only at h
    split_ifs at h with h1
    refine ⟨ts.dropLast, ?_, ?_⟩
    · have hlt : ts.findIdx (fun t => decide (t = Token.endOfProgram)) < ts.length := by omega
      have hx := List.findIdx_getElem (w := hlt)
      simp only [decide_eq_true_eq] at hx
      have hne : ts ≠ [] := by rintro rfl; simp at h1
      conv_lhs => rw [← List.dropLast_append_getLast hne]
      rw [List.getLast_eq_getElem]
      congr 2
      have : ts.length - 1 = ts.findIdx (fun t => decide (t = Token.endOfProgram)) := by omega
      simpa [this] using hx
    · intro hm
      obtain ⟨i, hi, he⟩ := List.mem_iff_getElem.1 hm
      have hi' : i < ts.length - 1 := by simpa using hi
      have : i < ts.findIdx (fun t => decide (t = Token.endOfProgram)) := by omega
      have := List.not_of_lt_findIdx this
      simp at he this
      exact this he
  · intro h
    unfold invalidTokenIndex
    simp [endsOnce_findIdx h]

/-- The position the check reports for an early `EndOfProgram`. -/
theorem invalid_early {ts : List Token} {i} (h1 : i + 1 < ts.length) (h2 : ts[i]? = some .endOfProgram)
    (h3 : ∀ j, j < i → ts[j]? ≠ some .endOfProgram) : invalidTokenIndex ts = some i := by
  have hf : ts.findIdx (fun t => decide (t = Token.endOfProgram)) = i := by
    rw [List.findIdx_eq (by omega)]
    refine ⟨?_, ?_⟩
    · have := (List.getElem?_eq_some_iff.1 h2).2; simp [this]
    · intro j hj
      have := h3 j hj
      rw [List.getElem?_eq_getElem (by omega)] at this
      simpa using this
  unfold invalidTokenIndex
  simp [hf]; omega

/-- The position the check reports when there is no `EndOfProgram`. -/
theorem invalid_absent {ts : List Token} (h : Token.endOfProgram ∉ ts) : invalidTokenIndex ts = some ts.length := by
  have hf : ts.findIdx (fun t => decide (t = Token.endOfProgram)) = ts.length := by
    rw [List.findIdx_eq_length]
    intro x hx; simp; rintro rfl; exact h hx
  unfold invalidTokenIndex
  simp [hf]

/-- Encode: the two checks, then the emission. -/
theorem encode_eq (cfg : Config) (c : Carrier) (ts : List Token) :
    encode cfg c ts = match invalidTokenIndex ts with
      | some i => .error (.invalidTokenStream i)
      | none => if availablePixels cfg c < ts.length then .error (.insufficientCapacity ts.length (availablePixels cfg c))
        else .ok { c with pix := emitRuns cfg.deltaTable cfg.origin (stack ts) (startPixel cfg c) 0 c.pix } := by
  rfl

/-- Pixels written one after another from an index on. -/
def writeAll : List Pixel → Nat → List Pixel → List Pixel
  | pix, _, [] => pix
  | pix, i, p :: ps => writeAll (pix.set i p) (i + 1) ps

/-- Two stretches of writes. -/
theorem writeAll_append (pix i a b) : writeAll pix i (a ++ b) = writeAll (writeAll pix i a) (i + a.length) b := by
  induction a generalizing pix i with
  | nil => simp [writeAll]
  | cons p a ih => simp [writeAll, ih]; congr 1; omega

/-- Writes keep the number of pixels. -/
theorem writeAll_length (pix i ps) : (writeAll pix i ps).length = pix.length := by
  induction ps generalizing pix i with
  | nil => rfl
  | cons p a ih => simp [writeAll, ih]

/-- A pixel after a stretch of writes. -/
theorem writeAll_get (pix i ps) (j : Nat) : (writeAll pix i ps)[j]? =
    if i ≤ j ∧ j < i + ps.length ∧ j < pix.length then ps[j - i]? else pix[j]? := by
  induction ps generalizing pix i with
  | nil => simp [writeAll]; omega
  | cons p a ih =>
    rw [writeAll, ih]
    simp only [List.length_set, List.length_cons]
    rcases Nat.lt_trichotomy i j with h | h | h
    · obtain ⟨d, rfl⟩ := Nat.exists_eq_add_of_lt h
      have e1 : i + d + 1 - i = d + 1 := by omega
      have e2 : i + d + 1 - (i + 1) = d := by omega
      rw [List.getElem?_set_ne (by omega), e1, e2, List.getElem?_cons_succ]
      congr 1
      simp; omega
    · subst h
      simp
      by_cases hl : i < pix.length
      · simp [hl]
      · simp [hl]
    · rw [List.getElem?_set_ne (by omega), if_neg (by omega), if_neg (by omega)]

/-- The continuation pixels of a run as a stretch of writes. -/
theorem writePixels_eq (o : Nat) (p : Pixel) (n k : Nat) (pix : List Pixel) : writePixels o p n k pix = writeAll pix (o + k) (List.replicate n p) := by
  induction n generalizing k pix with
  | zero => rfl
  | succ n ih => simp [writePixels, ih, List.replicate_succ, writeAll]; rfl

/-- The pixels a run list is emitted as. -/
def emitList (dt : DeltaTable) : Pixel → List EncodedRun → List Pixel
  | _, [] => []
  | prev, r :: rest =>
    let p := prev.add (dt.vectorFor r.token)
    (p :: List.replicate (r.count - 1) p) ++ emitList dt p rest

/-- The emission is one stretch of writes. -/
theorem emitRuns_eq (dt o runs prev k pix) :
    emitRuns dt o runs prev k pix = writeAll pix (o + k) (emitList dt prev runs) := by
  induction runs generalizing prev k pix with
  | nil => rfl
  | cons r rest ih =>
    simp only [emitRuns, emitList, ih, writePixels_eq]
    rw [List.cons_append, writeAll, writeAll_append]
    simp
    congr 1; omega

/-- The pixel after a run list. -/
def lastPix (dt : DeltaTable) (prev : Pixel) (runs : List EncodedRun) : Pixel :=
  runs.foldl (fun p r => p.add (dt.vectorFor r.token)) prev

/-- The emission of a run list in two parts. -/
theorem emitList_append (dt prev a b) : emitList dt prev (a ++ b) = emitList dt prev a ++ emitList dt (lastPix dt prev a) b := by
  induction a generalizing prev with
  | nil => rfl
  | cons r a ih => simp [emitList, ih, lastPix]

/-- Whether a token begins a run does not depend on the tokens after it. -/
theorem beginsRun_append {ts : List Token} {t : Token} {j : Nat} (h : j < ts.length) :
    beginsRun (ts ++ [t]) j = beginsRun ts j := by
  unfold beginsRun
  rw [List.getElem?_append_left h, List.getElem?_append_left (by omega)]

/-- The tokens before offset `k` that begin a run. -/
def heads (ts : List Token) (k : Nat) : List Token := ((List.range k).filter (beginsRun ts)).filterMap (ts[·]?)

/-- The heads before `k` do not depend on the tokens from `k` on. -/
theorem heads_append {ts : List Token} {t : Token} {k : Nat} (h : k ≤ ts.length) : heads (ts ++ [t]) k = heads ts k := by
  unfold heads
  have e : (List.range k).filter (beginsRun (ts ++ [t])) = (List.range k).filter (beginsRun ts) := by
    apply List.filter_congr
    intro x hx; simp at hx
    exact beginsRun_append (by omega)
  rw [e]
  apply List.filterMap_congr
  intro x hx
  simp at hx
  rw [List.getElem?_append_left (by omega)]

/-- The heads before `k + 1`. -/
theorem heads_succ (ts : List Token) (k : Nat) {t} (h : ts[k]? = some t) :
    heads ts (k + 1) = if beginsRun ts k then heads ts k ++ [t] else heads ts k := by
  unfold heads
  rw [List.range_succ, List.filter_append, List.filterMap_append]
  by_cases hb : beginsRun ts k <;> simp [hb, h]

/-- The start pixel with the vectors of the heads before `k` added. -/
def closedForm (dt : DeltaTable) (base : Pixel) (ts : List Token) (k : Nat) : Pixel :=
  (heads ts k).foldl (fun acc u => acc.add (dt.vectorFor u)) base

/-- The closed form at `k` does not depend on the tokens from `k` on. -/
theorem closed_append (dt base) {ts : List Token} {t : Token} {k : Nat} (h : k ≤ ts.length) :
    closedForm dt base (ts ++ [t]) k = closedForm dt base ts k := by simp [closedForm, heads_append h]

/-- The closed form at `k + 1`. -/
theorem closed_succ (dt base) (ts : List Token) (k : Nat) {t} (h : ts[k]? = some t) :
    closedForm dt base ts (k + 1) = if beginsRun ts k then (closedForm dt base ts k).add (dt.vectorFor t) else closedForm dt base ts k := by
  unfold closedForm
  rw [heads_succ ts k h]
  split_ifs <;> simp

/-- The last token begins no run exactly when it is stackable and repeats the token before it. -/
theorem beginsRun_last_iff (ts : List Token) (t : Token) :
    beginsRun (ts ++ [t]) ts.length = false ↔ ∃ ts', ts = ts' ++ [t] ∧ t.stackable = true := by
  unfold beginsRun
  rcases List.eq_nil_or_concat ts with rfl | ⟨l, x, rfl⟩
  · simp
  · simp only [List.concat_eq_append, List.length_append, List.length_cons, List.length_nil]
    have e1 : (l ++ [x] ++ [t])[l.length + (0 + 1)]? = some t := by simp
    have e2 : (l ++ [x] ++ [t])[l.length + (0 + 1) - 1]? = some x := by simp
    rw [e1, e2]
    simp only [Bool.or_eq_false_iff, decide_eq_false_iff_not, Option.any_some, Bool.not_eq_false']
    constructor
    · rintro ⟨⟨-, h2⟩, h3⟩
      simp at h2
      exact ⟨l, by simp [h2], h3⟩
    · rintro ⟨l', h, h3⟩
      have := (List.append_inj' h rfl).2
      simp at this
      simp [this, h3]

/-- The pixels of a stacked token sequence in closed form. -/
theorem emit_stack (dt : DeltaTable) (base : Pixel) (ts : List Token) :
    emitList dt base (stack ts) = (List.range ts.length).map (fun k => closedForm dt base ts (k + 1)) ∧
    lastPix dt base (stack ts) = closedForm dt base ts ts.length := by
  induction ts using List.reverseRecOn with
  | nil => exact ⟨rfl, rfl⟩
  | append_singleton ts t ih =>
    obtain ⟨ih1, ih2⟩ := ih
    have hcl := closed_succ dt base (ts ++ [t]) ts.length (t := t) (by simp)
    rw [closed_append dt base le_rfl] at hcl
    have hmap : (List.range ts.length).map (fun k => closedForm dt base (ts ++ [t]) (k + 1)) =
        (List.range ts.length).map (fun k => closedForm dt base ts (k + 1)) := by
      apply List.map_congr_left
      intro k hk; simp at hk
      exact closed_append dt base (by omega)
    rw [stack_snoc]
    simp only [List.length_append, List.length_cons, List.length_nil, Nat.zero_add]
    rw [List.range_succ, List.map_append, hmap, ← ih1]
    rcases stackPush_cases (stack ts) t with ⟨init, c, hr, hs, h⟩ | ⟨hn, h⟩
    · have hb : beginsRun (ts ++ [t]) ts.length = false := by
        rw [beginsRun_last_iff]
        obtain ⟨ts', h'⟩ := stack_last hr
        exact ⟨ts', h', hs⟩
      have hc : 1 ≤ c := stack_counts ts ⟨t, c⟩ (by simp [hr])
      rw [h]
      rw [hb] at hcl
      simp only [Bool.false_eq_true, if_false] at hcl
      have hl : lastPix dt base (init ++ [⟨t, c⟩]) = (lastPix dt base init).add (dt.vectorFor t) := by simp [lastPix]
      have hl' : lastPix dt base (init ++ [⟨t, c + 1⟩]) = (lastPix dt base init).add (dt.vectorFor t) := by simp [lastPix]
      rw [hl', hcl, ← ih2, hr, hl]
      refine ⟨?_, rfl⟩
      rw [emitList_append, emitList_append]
      simp only [emitList, List.append_nil, List.append_assoc, List.map_cons, List.map_nil, hcl, ← ih2, hr, hl]
      congr 1
      have : c + 1 - 1 = (c - 1) + 1 := by omega
      rw [this, List.replicate_succ']
      simp
    · have hb : beginsRun (ts ++ [t]) ts.length = true := by
        by_contra hb
        rw [Bool.not_eq_true, beginsRun_last_iff] at hb
        obtain ⟨ts', rfl, hs⟩ := hb
        rcases List.eq_nil_or_concat (stack (ts' ++ [t])) with h0 | ⟨init, r, h0⟩
        · have := stack_eq_nil h0; simp at this
        · rw [List.concat_eq_append] at h0
          obtain ⟨ts'', h1⟩ := stack_last h0
          have h2 := (List.append_inj' h1 rfl).2
          simp at h2
          have := hn init r h0 h2.symm
          simp [this] at hs
      rw [h]
      simp only [hb, if_true] at hcl
      have hl' : lastPix dt base (stack ts ++ [⟨t, 1⟩]) = (lastPix dt base (stack ts)).add (dt.vectorFor t) := by simp [lastPix]
      rw [hl', hcl, ← ih2]
      refine ⟨?_, rfl⟩
      rw [emitList_append]
      simp [emitList, hcl, ih2]

/-- One pixel per token. -/
theorem emit_length (dt base ts) : (emitList dt base (stack ts)).length = ts.length := by simp [emit_stack]

/-- The pixel at offset `k`. -/
theorem emit_get (dt base ts) (k : Nat) (h : k < ts.length) :
    (emitList dt base (stack ts))[k]? = some (closedForm dt base ts (k + 1)) := by
  rw [(emit_stack dt base ts).1]; simp [h]

/-- Everything Encode does when it succeeds. -/
theorem encode_ok {cfg c ts c'} (h : encode cfg c ts = .ok c') : EndsOnce ts ∧ ts.length ≤ availablePixels cfg c ∧
    c' = { c with pix := writeAll c.pix cfg.origin (emitList cfg.deltaTable (startPixel cfg c) (stack ts)) } := by
  rw [encode_eq] at h
  cases hi : invalidTokenIndex ts with
  | some i => rw [hi] at h; cases h
  | none =>
    rw [hi] at h
    simp only at h
    split_ifs at h with h1
    cases h
    refine ⟨invalid_none.1 hi, by omega, ?_⟩
    rw [emitRuns_eq]; rfl

end Sys2Proof.Machine
end

