-- ==== Sys2Proof/Laws/Memory.lean ====
section
/-! SUPPORT. The laws of the sparse maps, of the tape and of the jump table: a read after a write, a write leaves every
other index alone, and every operation keeps the canonical form. -/

namespace Sys2Proof.Machine

section Sparse
variable {α : Type}

@[simp] theorem Sparse.get?_nil (a : Nat) : Sparse.get? ([] : List (Nat × α)) a = none := rfl

theorem Sparse.get?_cons (k : Nat) (v : α) (m : List (Nat × α)) (a : Nat) :
    Sparse.get? ((k, v) :: m) a = if k = a then some v else Sparse.get? m a := rfl

theorem Sparse.get?_put (m : List (Nat × α)) (a b : Nat) (v : α) :
    Sparse.get? (Sparse.put m a v) b = if a = b then some v else Sparse.get? m b := by
  induction m with
  | nil => simp [Sparse.put, Sparse.get?]
  | cons c m ih =>
    obtain ⟨k, x⟩ := c
    simp only [Sparse.put]
    split_ifs <;> simp_all [Sparse.get?_cons]
    grind

theorem Sparse.get?_erase (m : List (Nat × α)) (a b : Nat) :
    Sparse.get? (Sparse.erase m a) b = if a = b then none else Sparse.get? m b := by
  induction m with
  | nil => simp [Sparse.erase]
  | cons c m ih =>
    obtain ⟨k, x⟩ := c
    simp only [Sparse.erase, List.filter_cons] at ih ⊢
    split_ifs <;> simp_all [Sparse.get?_cons]

/-- Every key of a `put` is the new key or an old one. -/
theorem Sparse.mem_put {m : List (Nat × α)} {a : Nat} {v : α} {c : Nat × α} (h : c ∈ Sparse.put m a v) :
    c = (a, v) ∨ c ∈ m := by
  induction m with
  | nil => simpa [Sparse.put] using h
  | cons d m ih =>
    obtain ⟨k, x⟩ := d
    simp only [Sparse.put] at h
    split_ifs at h <;> simp_all <;> grind

theorem Sparse.rising_put {m : List (Nat × α)} (h : Sparse.rising m) (a : Nat) (v : α) :
    Sparse.rising (Sparse.put m a v) := by
  induction m with
  | nil => simp [Sparse.put, Sparse.rising]
  | cons d m ih =>
    obtain ⟨k, x⟩ := d
    simp only [Sparse.rising, List.map_cons, List.pairwise_cons] at h ih
    have ih' := ih h.2
    simp only [Sparse.put]
    split_ifs with h1 h2
    · simp only [Sparse.rising, List.map_cons, List.pairwise_cons]
      refine ⟨?_, h⟩
      intro b hb
      rcases List.mem_cons.1 hb with rfl | hb
      · exact h1
      · exact lt_trans h1 (h.1 b hb)
    · subst h2
      simpa [Sparse.rising] using h
    · simp only [Sparse.rising, List.map_cons, List.pairwise_cons]
      refine ⟨?_, ih'⟩
      intro b hb
      obtain ⟨c, hc, rfl⟩ := List.mem_map.1 hb
      rcases Sparse.mem_put hc with rfl | hc
      · show k < a
        omega
      · exact h.1 _ (List.mem_map_of_mem hc)

theorem Sparse.rising_erase {m : List (Nat × α)} (h : Sparse.rising m) (a : Nat) : Sparse.rising (Sparse.erase m a) := by
  unfold Sparse.rising Sparse.erase at *
  exact h.sublist (List.Sublist.map _ List.filter_sublist)

/-- An index below every key is not listed. -/
theorem Sparse.get?_eq_none {m : List (Nat × α)} {a : Nat} (h : ∀ c ∈ m, c.1 ≠ a) : Sparse.get? m a = none := by
  induction m with
  | nil => rfl
  | cons d m ih =>
    rw [Sparse.get?_cons, if_neg (h d List.mem_cons_self), ih fun c hc => h c (List.mem_cons_of_mem _ hc)]

/-- In a map with strictly rising keys a listed pair is what its key reads as. -/
theorem Sparse.get?_of_mem {m : List (Nat × α)} (h : Sparse.rising m) {c : Nat × α} (hc : c ∈ m) :
    Sparse.get? m c.1 = some c.2 := by
  induction m with
  | nil => simp at hc
  | cons d m ih =>
    obtain ⟨k, x⟩ := d
    simp only [Sparse.rising, List.map_cons, List.pairwise_cons] at h
    rcases List.mem_cons.1 hc with rfl | hc
    · exact if_pos rfl
    · have := h.1 c.1 (List.mem_map_of_mem hc)
      rw [Sparse.get?_cons, if_neg (Nat.ne_of_lt this), ih h.2 hc]

end Sparse

/-! ### The tape -/

@[simp] theorem Memory.read_nil (a : Nat) : Memory.read [] a = 0 := rfl

/-- One read after one write. -/
theorem Memory.read_write (m : Memory) (a b : Nat) (v : Byte) :
    Memory.read (Memory.write m a v) b = if a = b then v else Memory.read m b := by
  unfold Memory.read Memory.write Memory.unlisted
  by_cases hv : v = 0
  · rw [if_pos hv, Sparse.get?_erase]
    split_ifs <;> simp [hv]
  · rw [if_neg hv, Sparse.get?_put]
    split_ifs <;> rfl

@[simp] theorem Memory.read_write_self (m : Memory) (a : Nat) (v : Byte) : Memory.read (Memory.write m a v) a = v := by
  simp [Memory.read_write]

theorem Memory.read_write_ne (m : Memory) {a b : Nat} (v : Byte) (h : b ≠ a) :
    Memory.read (Memory.write m a v) b = Memory.read m b := by
  rw [Memory.read_write, if_neg (Ne.symm h)]

theorem Memory.wf_nil : Memory.wf [] := by simp [Memory.wf, Sparse.rising]

/-- A write keeps the canonical form. -/
theorem Memory.wf_write {m : Memory} (h : Memory.wf m) (a : Nat) (v : Byte) : Memory.wf (Memory.write m a v) := by
  unfold Memory.write Memory.unlisted
  split_ifs with hv
  · exact ⟨Sparse.rising_erase h.1 a, fun c hc => h.2 c (List.mem_of_mem_filter hc)⟩
  · refine ⟨Sparse.rising_put h.1 a v, fun c hc => ?_⟩
    rcases Sparse.mem_put hc with rfl | hc
    · exact hv
    · exact h.2 c hc

/-- A write lists no index but the old ones and its own. -/
theorem Memory.mem_write {m : Memory} {a : Nat} {v : Byte} {c : Host.Cell} (h : c ∈ Memory.write m a v) :
    c.1 = a ∨ c ∈ m := by
  unfold Memory.write at h
  split_ifs at h
  · exact .inr (List.mem_of_mem_filter h)
  · rcases Sparse.mem_put h with rfl | h
    · exact .inl rfl
    · exact .inr h

/-! ### The jump table -/

@[simp] theorem JumpTable.target_nil (i : Nat) : JumpTable.target [] i = none := rfl

theorem JumpTable.target_pair (jt : JumpTable) (j i k : Nat) :
    JumpTable.target (JumpTable.pair jt j i) k =
      if i = k then some j else if j = k then some i else JumpTable.target jt k := by
  simp [JumpTable.target, JumpTable.pair, Sparse.get?_put]

theorem JumpTable.rising_pair {jt : JumpTable} (h : Sparse.rising jt) (j i : Nat) :
    Sparse.rising (JumpTable.pair jt j i) :=
  Sparse.rising_put (Sparse.rising_put h j i) i j

end Sys2Proof.Machine
end

