-- ==== Sys2Proof/Laws/State.lean ====
section
/-! SUPPORT. What each register update does to each field of State: one lemma per field per update. -/

namespace Sys2Proof.Machine

section
variable (s : State)

@[simp] theorem State.advance_cfg : (s.advance).cfg = s.cfg := rfl
@[simp] theorem State.advance_active : (s.advance).active = s.active := rfl
@[simp] theorem State.advance_carrier : (s.advance).carrier = s.carrier := rfl
@[simp] theorem State.advance_encoder : (s.advance).encoder = s.encoder := rfl
@[simp] theorem State.advance_decoder : (s.advance).decoder = s.decoder := rfl
@[simp] theorem State.advance_loader : (s.advance).loader = s.loader := rfl
@[simp] theorem State.advance_prog : (s.advance).prog = s.prog := rfl
@[simp] theorem State.advance_jt : (s.advance).jt = s.jt := rfl
@[simp] theorem State.advance_ip : (s.advance).ip = s.ip + 1 := rfl
@[simp] theorem State.advance_dp : (s.advance).dp = s.dp := rfl
@[simp] theorem State.advance_tape : (s.advance).tape = s.tape := rfl
@[simp] theorem State.advance_input : (s.advance).input = s.input := rfl
@[simp] theorem State.advance_closed : (s.advance).closed = s.closed := rfl
@[simp] theorem State.advance_inCursor : (s.advance).inCursor = s.inCursor := rfl
@[simp] theorem State.advance_out : (s.advance).out = s.out := rfl
@[simp] theorem State.advance_steps : (s.advance).steps = s.steps := rfl
@[simp] theorem State.advance_status : (s.advance).status = s.status := rfl
@[simp] theorem State.advance_pending : (s.advance).pending = s.pending := rfl
@[simp] theorem State.advance_arrivals : (s.advance).arrivals = s.arrivals := rfl
@[simp] theorem State.advance_responses : (s.advance).responses = s.responses := rfl

@[simp] theorem State.jump_cfg (j : Nat) : (s.jump j).cfg = s.cfg := rfl
@[simp] theorem State.jump_active (j : Nat) : (s.jump j).active = s.active := rfl
@[simp] theorem State.jump_carrier (j : Nat) : (s.jump j).carrier = s.carrier := rfl
@[simp] theorem State.jump_encoder (j : Nat) : (s.jump j).encoder = s.encoder := rfl
@[simp] theorem State.jump_decoder (j : Nat) : (s.jump j).decoder = s.decoder := rfl
@[simp] theorem State.jump_loader (j : Nat) : (s.jump j).loader = s.loader := rfl
@[simp] theorem State.jump_prog (j : Nat) : (s.jump j).prog = s.prog := rfl
@[simp] theorem State.jump_jt (j : Nat) : (s.jump j).jt = s.jt := rfl
@[simp] theorem State.jump_ip (j : Nat) : (s.jump j).ip = j := rfl
@[simp] theorem State.jump_dp (j : Nat) : (s.jump j).dp = s.dp := rfl
@[simp] theorem State.jump_tape (j : Nat) : (s.jump j).tape = s.tape := rfl
@[simp] theorem State.jump_input (j : Nat) : (s.jump j).input = s.input := rfl
@[simp] theorem State.jump_closed (j : Nat) : (s.jump j).closed = s.closed := rfl
@[simp] theorem State.jump_inCursor (j : Nat) : (s.jump j).inCursor = s.inCursor := rfl
@[simp] theorem State.jump_out (j : Nat) : (s.jump j).out = s.out := rfl
@[simp] theorem State.jump_steps (j : Nat) : (s.jump j).steps = s.steps := rfl
@[simp] theorem State.jump_status (j : Nat) : (s.jump j).status = s.status := rfl
@[simp] theorem State.jump_pending (j : Nat) : (s.jump j).pending = s.pending := rfl
@[simp] theorem State.jump_arrivals (j : Nat) : (s.jump j).arrivals = s.arrivals := rfl
@[simp] theorem State.jump_responses (j : Nat) : (s.jump j).responses = s.responses := rfl

@[simp] theorem State.moveTo_cfg (d : Nat) : (s.moveTo d).cfg = s.cfg := rfl
@[simp] theorem State.moveTo_active (d : Nat) : (s.moveTo d).active = s.active := rfl
@[simp] theorem State.moveTo_carrier (d : Nat) : (s.moveTo d).carrier = s.carrier := rfl
@[simp] theorem State.moveTo_encoder (d : Nat) : (s.moveTo d).encoder = s.encoder := rfl
@[simp] theorem State.moveTo_decoder (d : Nat) : (s.moveTo d).decoder = s.decoder := rfl
@[simp] theorem State.moveTo_loader (d : Nat) : (s.moveTo d).loader = s.loader := rfl
@[simp] theorem State.moveTo_prog (d : Nat) : (s.moveTo d).prog = s.prog := rfl
@[simp] theorem State.moveTo_jt (d : Nat) : (s.moveTo d).jt = s.jt := rfl
@[simp] theorem State.moveTo_ip (d : Nat) : (s.moveTo d).ip = s.ip := rfl
@[simp] theorem State.moveTo_dp (d : Nat) : (s.moveTo d).dp = d := rfl
@[simp] theorem State.moveTo_tape (d : Nat) : (s.moveTo d).tape = s.tape := rfl
@[simp] theorem State.moveTo_input (d : Nat) : (s.moveTo d).input = s.input := rfl
@[simp] theorem State.moveTo_closed (d : Nat) : (s.moveTo d).closed = s.closed := rfl
@[simp] theorem State.moveTo_inCursor (d : Nat) : (s.moveTo d).inCursor = s.inCursor := rfl
@[simp] theorem State.moveTo_out (d : Nat) : (s.moveTo d).out = s.out := rfl
@[simp] theorem State.moveTo_steps (d : Nat) : (s.moveTo d).steps = s.steps := rfl
@[simp] theorem State.moveTo_status (d : Nat) : (s.moveTo d).status = s.status := rfl
@[simp] theorem State.moveTo_pending (d : Nat) : (s.moveTo d).pending = s.pending := rfl
@[simp] theorem State.moveTo_arrivals (d : Nat) : (s.moveTo d).arrivals = s.arrivals := rfl
@[simp] theorem State.moveTo_responses (d : Nat) : (s.moveTo d).responses = s.responses := rfl

@[simp] theorem State.writeCell_cfg (v : Byte) : (s.writeCell v).cfg = s.cfg := rfl
@[simp] theorem State.writeCell_active (v : Byte) : (s.writeCell v).active = s.active := rfl
@[simp] theorem State.writeCell_carrier (v : Byte) : (s.writeCell v).carrier = s.carrier := rfl
@[simp] theorem State.writeCell_encoder (v : Byte) : (s.writeCell v).encoder = s.encoder := rfl
@[simp] theorem State.writeCell_decoder (v : Byte) : (s.writeCell v).decoder = s.decoder := rfl
@[simp] theorem State.writeCell_loader (v : Byte) : (s.writeCell v).loader = s.loader := rfl
@[simp] theorem State.writeCell_prog (v : Byte) : (s.writeCell v).prog = s.prog := rfl
@[simp] theorem State.writeCell_jt (v : Byte) : (s.writeCell v).jt = s.jt := rfl
@[simp] theorem State.writeCell_ip (v : Byte) : (s.writeCell v).ip = s.ip := rfl
@[simp] theorem State.writeCell_dp (v : Byte) : (s.writeCell v).dp = s.dp := rfl
@[simp] theorem State.writeCell_tape (v : Byte) : (s.writeCell v).tape = Memory.write s.tape s.dp v := rfl
@[simp] theorem State.writeCell_input (v : Byte) : (s.writeCell v).input = s.input := rfl
@[simp] theorem State.writeCell_closed (v : Byte) : (s.writeCell v).closed = s.closed := rfl
@[simp] theorem State.writeCell_inCursor (v : Byte) : (s.writeCell v).inCursor = s.inCursor := rfl
@[simp] theorem State.writeCell_out (v : Byte) : (s.writeCell v).out = s.out := rfl
@[simp] theorem State.writeCell_steps (v : Byte) : (s.writeCell v).steps = s.steps := rfl
@[simp] theorem State.writeCell_status (v : Byte) : (s.writeCell v).status = s.status := rfl
@[simp] theorem State.writeCell_pending (v : Byte) : (s.writeCell v).pending = s.pending := rfl
@[simp] theorem State.writeCell_arrivals (v : Byte) : (s.writeCell v).arrivals = s.arrivals := rfl
@[simp] theorem State.writeCell_responses (v : Byte) : (s.writeCell v).responses = s.responses := rfl

@[simp] theorem State.consume_cfg : (s.consume).cfg = s.cfg := rfl
@[simp] theorem State.consume_active : (s.consume).active = s.active := rfl
@[simp] theorem State.consume_carrier : (s.consume).carrier = s.carrier := rfl
@[simp] theorem State.consume_encoder : (s.consume).encoder = s.encoder := rfl
@[simp] theorem State.consume_decoder : (s.consume).decoder = s.decoder := rfl
@[simp] theorem State.consume_loader : (s.consume).loader = s.loader := rfl
@[simp] theorem State.consume_prog : (s.consume).prog = s.prog := rfl
@[simp] theorem State.consume_jt : (s.consume).jt = s.jt := rfl
@[simp] theorem State.consume_ip : (s.consume).ip = s.ip := rfl
@[simp] theorem State.consume_dp : (s.consume).dp = s.dp := rfl
@[simp] theorem State.consume_tape : (s.consume).tape = s.tape := rfl
@[simp] theorem State.consume_input : (s.consume).input = s.input := rfl
@[simp] theorem State.consume_closed : (s.consume).closed = s.closed := rfl
@[simp] theorem State.consume_inCursor : (s.consume).inCursor = s.inCursor + 1 := rfl
@[simp] theorem State.consume_out : (s.consume).out = s.out := rfl
@[simp] theorem State.consume_steps : (s.consume).steps = s.steps := rfl
@[simp] theorem State.consume_status : (s.consume).status = s.status := rfl
@[simp] theorem State.consume_pending : (s.consume).pending = s.pending := rfl
@[simp] theorem State.consume_arrivals : (s.consume).arrivals = s.arrivals := rfl
@[simp] theorem State.consume_responses : (s.consume).responses = s.responses := rfl

@[simp] theorem State.outPush_cfg (b : Byte) : (s.outPush b).cfg = s.cfg := rfl
@[simp] theorem State.outPush_active (b : Byte) : (s.outPush b).active = s.active := rfl
@[simp] theorem State.outPush_carrier (b : Byte) : (s.outPush b).carrier = s.carrier := rfl
@[simp] theorem State.outPush_encoder (b : Byte) : (s.outPush b).encoder = s.encoder := rfl
@[simp] theorem State.outPush_decoder (b : Byte) : (s.outPush b).decoder = s.decoder := rfl
@[simp] theorem State.outPush_loader (b : Byte) : (s.outPush b).loader = s.loader := rfl
@[simp] theorem State.outPush_prog (b : Byte) : (s.outPush b).prog = s.prog := rfl
@[simp] theorem State.outPush_jt (b : Byte) : (s.outPush b).jt = s.jt := rfl
@[simp] theorem State.outPush_ip (b : Byte) : (s.outPush b).ip = s.ip := rfl
@[simp] theorem State.outPush_dp (b : Byte) : (s.outPush b).dp = s.dp := rfl
@[simp] theorem State.outPush_tape (b : Byte) : (s.outPush b).tape = s.tape := rfl
@[simp] theorem State.outPush_input (b : Byte) : (s.outPush b).input = s.input := rfl
@[simp] theorem State.outPush_closed (b : Byte) : (s.outPush b).closed = s.closed := rfl
@[simp] theorem State.outPush_inCursor (b : Byte) : (s.outPush b).inCursor = s.inCursor := rfl
@[simp] theorem State.outPush_out (b : Byte) : (s.outPush b).out = s.out ++ [b] := rfl
@[simp] theorem State.outPush_steps (b : Byte) : (s.outPush b).steps = s.steps := rfl
@[simp] theorem State.outPush_status (b : Byte) : (s.outPush b).status = s.status := rfl
@[simp] theorem State.outPush_pending (b : Byte) : (s.outPush b).pending = s.pending := rfl
@[simp] theorem State.outPush_arrivals (b : Byte) : (s.outPush b).arrivals = s.arrivals := rfl
@[simp] theorem State.outPush_responses (b : Byte) : (s.outPush b).responses = s.responses := rfl

@[simp] theorem State.countStep_cfg : (s.countStep).cfg = s.cfg := rfl
@[simp] theorem State.countStep_active : (s.countStep).active = s.active := rfl
@[simp] theorem State.countStep_carrier : (s.countStep).carrier = s.carrier := rfl
@[simp] theorem State.countStep_encoder : (s.countStep).encoder = s.encoder := rfl
@[simp] theorem State.countStep_decoder : (s.countStep).decoder = s.decoder := rfl
@[simp] theorem State.countStep_loader : (s.countStep).loader = s.loader := rfl
@[simp] theorem State.countStep_prog : (s.countStep).prog = s.prog := rfl
@[simp] theorem State.countStep_jt : (s.countStep).jt = s.jt := rfl
@[simp] theorem State.countStep_ip : (s.countStep).ip = s.ip := rfl
@[simp] theorem State.countStep_dp : (s.countStep).dp = s.dp := rfl
@[simp] theorem State.countStep_tape : (s.countStep).tape = s.tape := rfl
@[simp] theorem State.countStep_input : (s.countStep).input = s.input := rfl
@[simp] theorem State.countStep_closed : (s.countStep).closed = s.closed := rfl
@[simp] theorem State.countStep_inCursor : (s.countStep).inCursor = s.inCursor := rfl
@[simp] theorem State.countStep_out : (s.countStep).out = s.out := rfl
@[simp] theorem State.countStep_steps : (s.countStep).steps = s.steps + 1 := rfl
@[simp] theorem State.countStep_status : (s.countStep).status = s.status := rfl
@[simp] theorem State.countStep_pending : (s.countStep).pending = s.pending := rfl
@[simp] theorem State.countStep_arrivals : (s.countStep).arrivals = s.arrivals := rfl
@[simp] theorem State.countStep_responses : (s.countStep).responses = s.responses := rfl

@[simp] theorem State.halt_cfg : (s.halt).cfg = s.cfg := rfl
@[simp] theorem State.halt_active : (s.halt).active = s.active := rfl
@[simp] theorem State.halt_carrier : (s.halt).carrier = s.carrier := rfl
@[simp] theorem State.halt_encoder : (s.halt).encoder = s.encoder := rfl
@[simp] theorem State.halt_decoder : (s.halt).decoder = s.decoder := rfl
@[simp] theorem State.halt_loader : (s.halt).loader = s.loader := rfl
@[simp] theorem State.halt_prog : (s.halt).prog = s.prog := rfl
@[simp] theorem State.halt_jt : (s.halt).jt = s.jt := rfl
@[simp] theorem State.halt_ip : (s.halt).ip = s.ip := rfl
@[simp] theorem State.halt_dp : (s.halt).dp = s.dp := rfl
@[simp] theorem State.halt_tape : (s.halt).tape = s.tape := rfl
@[simp] theorem State.halt_input : (s.halt).input = s.input := rfl
@[simp] theorem State.halt_closed : (s.halt).closed = s.closed := rfl
@[simp] theorem State.halt_inCursor : (s.halt).inCursor = s.inCursor := rfl
@[simp] theorem State.halt_out : (s.halt).out = s.out := rfl
@[simp] theorem State.halt_steps : (s.halt).steps = s.steps := rfl
@[simp] theorem State.halt_status : (s.halt).status = .halted := rfl
@[simp] theorem State.halt_pending : (s.halt).pending = s.pending := rfl
@[simp] theorem State.halt_arrivals : (s.halt).arrivals = s.arrivals := rfl
@[simp] theorem State.halt_responses : (s.halt).responses = s.responses := rfl

@[simp] theorem State.raise_cfg (e : Err) : (s.raise e).cfg = s.cfg := rfl
@[simp] theorem State.raise_active (e : Err) : (s.raise e).active = s.active := rfl
@[simp] theorem State.raise_carrier (e : Err) : (s.raise e).carrier = s.carrier := rfl
@[simp] theorem State.raise_encoder (e : Err) : (s.raise e).encoder = s.encoder := rfl
@[simp] theorem State.raise_decoder (e : Err) : (s.raise e).decoder = s.decoder := rfl
@[simp] theorem State.raise_loader (e : Err) : (s.raise e).loader = s.loader := rfl
@[simp] theorem State.raise_prog (e : Err) : (s.raise e).prog = s.prog := rfl
@[simp] theorem State.raise_jt (e : Err) : (s.raise e).jt = s.jt := rfl
@[simp] theorem State.raise_ip (e : Err) : (s.raise e).ip = s.ip := rfl
@[simp] theorem State.raise_dp (e : Err) : (s.raise e).dp = s.dp := rfl
@[simp] theorem State.raise_tape (e : Err) : (s.raise e).tape = s.tape := rfl
@[simp] theorem State.raise_input (e : Err) : (s.raise e).input = s.input := rfl
@[simp] theorem State.raise_closed (e : Err) : (s.raise e).closed = s.closed := rfl
@[simp] theorem State.raise_inCursor (e : Err) : (s.raise e).inCursor = s.inCursor := rfl
@[simp] theorem State.raise_out (e : Err) : (s.raise e).out = s.out := rfl
@[simp] theorem State.raise_steps (e : Err) : (s.raise e).steps = s.steps := rfl
@[simp] theorem State.raise_status (e : Err) : (s.raise e).status = .faulted e := rfl
@[simp] theorem State.raise_pending (e : Err) : (s.raise e).pending = s.pending := rfl
@[simp] theorem State.raise_arrivals (e : Err) : (s.raise e).arrivals = s.arrivals := rfl
@[simp] theorem State.raise_responses (e : Err) : (s.raise e).responses = s.responses := rfl

@[simp] theorem State.hostClose_cfg : (s.hostClose).cfg = s.cfg := rfl
@[simp] theorem State.hostClose_active : (s.hostClose).active = s.active := rfl
@[simp] theorem State.hostClose_carrier : (s.hostClose).carrier = s.carrier := rfl
@[simp] theorem State.hostClose_encoder : (s.hostClose).encoder = s.encoder := rfl
@[simp] theorem State.hostClose_decoder : (s.hostClose).decoder = s.decoder := rfl
@[simp] theorem State.hostClose_loader : (s.hostClose).loader = s.loader := rfl
@[simp] theorem State.hostClose_prog : (s.hostClose).prog = s.prog := rfl
@[simp] theorem State.hostClose_jt : (s.hostClose).jt = s.jt := rfl
@[simp] theorem State.hostClose_ip : (s.hostClose).ip = s.ip := rfl
@[simp] theorem State.hostClose_dp : (s.hostClose).dp = s.dp := rfl
@[simp] theorem State.hostClose_tape : (s.hostClose).tape = s.tape := rfl
@[simp] theorem State.hostClose_input : (s.hostClose).input = s.input := rfl
@[simp] theorem State.hostClose_closed : (s.hostClose).closed = true := rfl
@[simp] theorem State.hostClose_inCursor : (s.hostClose).inCursor = s.inCursor := rfl
@[simp] theorem State.hostClose_out : (s.hostClose).out = s.out := rfl
@[simp] theorem State.hostClose_steps : (s.hostClose).steps = s.steps := rfl
@[simp] theorem State.hostClose_status : (s.hostClose).status = s.status := rfl
@[simp] theorem State.hostClose_pending : (s.hostClose).pending = s.pending := rfl
@[simp] theorem State.hostClose_arrivals : (s.hostClose).arrivals = s.arrivals := rfl
@[simp] theorem State.hostClose_responses : (s.hostClose).responses = s.responses := rfl

@[simp] theorem State.resetEngine_cfg (p : List Token) (t : JumpTable) : (s.resetEngine p t).cfg = s.cfg := rfl
@[simp] theorem State.resetEngine_active (p : List Token) (t : JumpTable) : (s.resetEngine p t).active = s.active := rfl
@[simp] theorem State.resetEngine_carrier (p : List Token) (t : JumpTable) : (s.resetEngine p t).carrier = s.carrier := rfl
@[simp] theorem State.resetEngine_encoder (p : List Token) (t : JumpTable) : (s.resetEngine p t).encoder = s.encoder := rfl
@[simp] theorem State.resetEngine_decoder (p : List Token) (t : JumpTable) : (s.resetEngine p t).decoder = s.decoder := rfl
@[simp] theorem State.resetEngine_loader (p : List Token) (t : JumpTable) : (s.resetEngine p t).loader = s.loader := rfl
@[simp] theorem State.resetEngine_prog (p : List Token) (t : JumpTable) : (s.resetEngine p t).prog = p := rfl
@[simp] theorem State.resetEngine_jt (p : List Token) (t : JumpTable) : (s.resetEngine p t).jt = t := rfl
@[simp] theorem State.resetEngine_ip (p : List Token) (t : JumpTable) : (s.resetEngine p t).ip = 0 := rfl
@[simp] theorem State.resetEngine_dp (p : List Token) (t : JumpTable) : (s.resetEngine p t).dp = 0 := rfl
@[simp] theorem State.resetEngine_tape (p : List Token) (t : JumpTable) : (s.resetEngine p t).tape = [] := rfl
@[simp] theorem State.resetEngine_input (p : List Token) (t : JumpTable) : (s.resetEngine p t).input = s.input := rfl
@[simp] theorem State.resetEngine_closed (p : List Token) (t : JumpTable) : (s.resetEngine p t).closed = s.closed := rfl
@[simp] theorem State.resetEngine_inCursor (p : List Token) (t : JumpTable) : (s.resetEngine p t).inCursor = 0 := rfl
@[simp] theorem State.resetEngine_out (p : List Token) (t : JumpTable) : (s.resetEngine p t).out = [] := rfl
@[simp] theorem State.resetEngine_steps (p : List Token) (t : JumpTable) : (s.resetEngine p t).steps = 0 := rfl
@[simp] theorem State.resetEngine_status (p : List Token) (t : JumpTable) : (s.resetEngine p t).status = .running := rfl
@[simp] theorem State.resetEngine_pending (p : List Token) (t : JumpTable) : (s.resetEngine p t).pending = s.pending := rfl
@[simp] theorem State.resetEngine_arrivals (p : List Token) (t : JumpTable) : (s.resetEngine p t).arrivals = s.arrivals := rfl
@[simp] theorem State.resetEngine_responses (p : List Token) (t : JumpTable) : (s.resetEngine p t).responses = s.responses := rfl

@[simp] theorem State.finish_cfg (r : Response) : (s.finish r).cfg = s.cfg := rfl
@[simp] theorem State.finish_active (r : Response) : (s.finish r).active = .host := rfl
@[simp] theorem State.finish_carrier (r : Response) : (s.finish r).carrier = s.carrier := rfl
@[simp] theorem State.finish_encoder (r : Response) : (s.finish r).encoder = EncoderWork.idle := rfl
@[simp] theorem State.finish_decoder (r : Response) : (s.finish r).decoder = DecoderWork.idle := rfl
@[simp] theorem State.finish_loader (r : Response) : (s.finish r).loader = LoaderWork.idle := rfl
@[simp] theorem State.finish_prog (r : Response) : (s.finish r).prog = s.prog := rfl
@[simp] theorem State.finish_jt (r : Response) : (s.finish r).jt = s.jt := rfl
@[simp] theorem State.finish_ip (r : Response) : (s.finish r).ip = s.ip := rfl
@[simp] theorem State.finish_dp (r : Response) : (s.finish r).dp = s.dp := rfl
@[simp] theorem State.finish_tape (r : Response) : (s.finish r).tape = s.tape := rfl
@[simp] theorem State.finish_input (r : Response) : (s.finish r).input = s.input := rfl
@[simp] theorem State.finish_closed (r : Response) : (s.finish r).closed = s.closed := rfl
@[simp] theorem State.finish_inCursor (r : Response) : (s.finish r).inCursor = s.inCursor := rfl
@[simp] theorem State.finish_out (r : Response) : (s.finish r).out = s.out := rfl
@[simp] theorem State.finish_steps (r : Response) : (s.finish r).steps = s.steps := rfl
@[simp] theorem State.finish_status (r : Response) : (s.finish r).status = s.status := rfl
@[simp] theorem State.finish_pending (r : Response) : (s.finish r).pending = s.pending := rfl
@[simp] theorem State.finish_arrivals (r : Response) : (s.finish r).arrivals = s.arrivals := rfl
@[simp] theorem State.finish_responses (r : Response) : (s.finish r).responses = s.responses ++ [r] := rfl

end

/-! ### An update followed by an update -/

@[simp] theorem State.advance_cell (s : State) : s.advance.cell = s.cell := rfl
@[simp] theorem State.advance_cellInRange (s : State) : s.advance.cellInRange = s.cellInRange := rfl
@[simp] theorem State.writeCell_cellInRange (s : State) (v : Byte) : (s.writeCell v).cellInRange = s.cellInRange := rfl

/-- The current cell exists when the tape is unbounded or `dp` is below its size. -/
theorem State.cellInRange_iff (s : State) : s.cellInRange = true ↔ ∀ n, s.cfg.tapeCells = some n → s.dp < n := by
  unfold State.cellInRange
  cases s.cfg.tapeCells <;> simp

end Sys2Proof.Machine
end

