-- ==== Sys2Proof/Laws/Exec.lean ====
section
/-! SUPPORT. The laws of the instructions and of the step: the shared operations, everything an instruction can do when it
answers a next state, and what each agent's step is. -/

namespace Sys2Proof.Machine

/-- The limit check against `BelowLimit`. -/
theorem limitReached_false {s : State} : s.limitReached = false ↔ BelowLimit s := by
  unfold State.limitReached BelowLimit; cases s.cfg.stepLimit <;> simp

/-- A poll answers NotYet exactly when the source waits. -/
theorem poll_notYet {s : State} : s.inPoll = .notYet ↔ SourceWaits s := by
  unfold State.inPoll SourceWaits
  rw [← List.getElem?_eq_none_iff]
  cases s.input[s.inCursor]? <;> cases s.closed <;> simp

/-- What holds. -/
theorem holds_iff {s : State} {t} : s.holds t = true ↔ t = .input ∧ SourceWaits s := by
  simp [State.holds, poll_notYet]

/-- What a meaning on the current cell says when it answers a next state. -/
theorem onCell_next {s : State} {k s'} (h : s.onCell k = .next s') : s.cellInRange = true ∧ k s.cell = .next s' := by
  unfold State.onCell at h; split_ifs at h with h1; exact ⟨h1, h⟩

/-- A meaning on a cell that exists. -/
theorem onCell_true {s : State} {k} (h : s.cellInRange = true) : s.onCell k = k s.cell := by simp [State.onCell, h]

/-- A meaning on a cell that does not exist. -/
theorem onCell_false {s : State} {k} (h : s.cellInRange = false) : s.onCell k = .fault .cellOutsideTape := by
  simp [State.onCell, h]

/-- The end of a bounded tape. -/
theorem atTapeEnd_false {s : State} : s.atTapeEnd = false ↔ ∀ n, s.cfg.tapeCells = some n → s.dp + 1 < n := by
  unfold State.atTapeEnd; cases s.cfg.tapeCells <;> simp

/-- The cell that `CellExists` speaks of. -/
theorem cellInRange_of {s : State} (h : CellExists s) : s.cellInRange = true := (State.cellInRange_iff s).2 h

/-- A conditional jump as a meaning on the current cell. -/
theorem branch_eq (s : State) (f) : s.branchIf f = s.onCell fun v => if f v then s.jumpToPartner else .next s.advance := rfl

/-- Everything a conditional jump does when it answers a next state. -/
theorem branch_next {s : State} {f s'} (h : s.branchIf f = .next s') : s.cellInRange = true ∧
    ((f s.cell = true ∧ ∃ j, JumpTable.target s.jt s.ip = some j ∧ s' = s.jump j) ∨ (f s.cell = false ∧ s' = s.advance)) := by
  obtain ⟨h1, h2⟩ := onCell_next h
  refine ⟨h1, ?_⟩
  split_ifs at h2 with h3
  · left
    unfold State.jumpToPartner at h2
    split at h2
    · rename_i j hj; cases h2; exact ⟨h3, j, hj, rfl⟩
    · cases h2
  · right; cases h2; exact ⟨by simpa using h3, rfl⟩

/-- See execIncrement. -/
theorem exec_increment (s : State) : exec .increment s = s.onCell fun v => .next (s.writeCell (v + 1)).advance := rfl

/-- See execDecrement. -/
theorem exec_decrement (s : State) : exec .decrement s = s.onCell fun v => .next (s.writeCell (v - 1)).advance := rfl

/-- See execOutput. -/
theorem exec_output (s : State) : exec .output s = s.onCell fun v => .next (s.outPush v).advance := rfl

/-- See execLoopOpen. -/
theorem exec_loopOpen (s : State) : exec .loopOpen s = s.branchIf fun v => cellIsZero v := rfl

/-- See execLoopClose. -/
theorem exec_loopClose (s : State) : exec .loopClose s = s.branchIf fun v => !cellIsZero v := rfl

/-- See execInput. -/
theorem exec_input (s : State) : exec .input s = match s.inPoll with
    | .byte b => s.onCell fun _ => .next ((s.writeCell b).consume).advance
    | .exhausted => s.inputExhausted
    | .notYet => .next s := rfl

/-- See execMoveRight. -/
theorem exec_moveRight (s : State) : exec .moveRight s =
    if s.atTapeEnd then .next (s.raise (.tapeOverflow s.ip s.dp)) else .next (s.moveTo (s.dp + 1)).advance := rfl

/-- See execMoveLeft. -/
theorem exec_moveLeft (s : State) : exec .moveLeft s =
    if s.dp = 0 then
      match s.cfg.underflowPolicy with
      | .fault => .next (s.raise (.tapeUnderflow s.ip))
      | .clamp => .next s.advance
    else .next (s.moveTo (s.dp - 1)).advance := rfl

/-- Everything an instruction can do when it answers a next state. -/
theorem exec_token_cases {s s' : State} {t : Token} (h : exec t.toInstr s = .next s') :
    (t = .moveRight ∧ ((s.atTapeEnd = true ∧ s' = s.raise (.tapeOverflow s.ip s.dp)) ∨ (s.atTapeEnd = false ∧ s' = (s.moveTo (s.dp + 1)).advance))) ∨
    (t = .moveLeft ∧ ((s.dp = 0 ∧ s.cfg.underflowPolicy = .fault ∧ s' = s.raise (.tapeUnderflow s.ip)) ∨ (s.dp = 0 ∧ s.cfg.underflowPolicy = .clamp ∧ s' = s.advance) ∨ (s.dp ≠ 0 ∧ s' = (s.moveTo (s.dp - 1)).advance))) ∨
    ((t = .increment ∨ t = .decrement) ∧ s.cellInRange = true ∧ ∃ v, s' = (s.writeCell v).advance) ∨
    (t = .output ∧ s.cellInRange = true ∧ s' = (s.outPush s.cell).advance) ∨
    (t = .input ∧ ((s.cellInRange = true ∧ ∃ b, s.inPoll = .byte b ∧ s' = ((s.writeCell b).consume).advance) ∨
       (s.inPoll = .exhausted ∧ ((s.cellInRange = true ∧ s' = (s.writeCell 0).advance) ∨ s' = s.advance ∨ s' = s.halt)) ∨ (s.inPoll = .notYet ∧ s' = s))) ∨
    (t = .loopOpen ∧ s.cellInRange = true ∧ ((s.cell = 0 ∧ ∃ j, JumpTable.target s.jt s.ip = some j ∧ s' = s.jump j) ∨ (s.cell ≠ 0 ∧ s' = s.advance))) ∨
    (t = .loopClose ∧ s.cellInRange = true ∧ ((s.cell ≠ 0 ∧ ∃ j, JumpTable.target s.jt s.ip = some j ∧ s' = s.jump j) ∨ (s.cell = 0 ∧ s' = s.advance))) ∨
    (t = .endOfProgram ∧ s' = s.halt) := by
  cases t
  · left; refine ⟨rfl, ?_⟩
    simp only [Token.toInstr, exec, execMoveRight] at h
    split_ifs at h with h1 <;> cases h
    · exact .inl ⟨h1, rfl⟩
    · exact .inr ⟨by simpa using h1, rfl⟩
  · right; left; refine ⟨rfl, ?_⟩
    simp only [Token.toInstr, exec, execMoveLeft] at h
    split_ifs at h with h1
    · split at h <;> cases h
      · exact .inl ⟨h1, ‹_›, rfl⟩
      · exact .inr (.inl ⟨h1, ‹_›, rfl⟩)
    · cases h; exact .inr (.inr ⟨h1, rfl⟩)
  · right; right; left; refine ⟨.inl rfl, ?_⟩
    change exec .increment s = _ at h; rw [exec_increment] at h; obtain ⟨h1, h2⟩ := onCell_next h; cases h2; exact ⟨h1, _, rfl⟩
  · right; right; left; refine ⟨.inr rfl, ?_⟩
    change exec .decrement s = _ at h; rw [exec_decrement] at h; obtain ⟨h1, h2⟩ := onCell_next h; cases h2; exact ⟨h1, _, rfl⟩
  · right; right; right; left; refine ⟨rfl, ?_⟩
    change exec .output s = _ at h; rw [exec_output] at h; obtain ⟨h1, h2⟩ := onCell_next h; cases h2; exact ⟨h1, rfl⟩
  · right; right; right; right; left; refine ⟨rfl, ?_⟩
    simp only [Token.toInstr, exec, execInput] at h
    split at h
    · obtain ⟨h1, h2⟩ := onCell_next h; cases h2; exact .inl ⟨h1, _, ‹_›, rfl⟩
    · right; left; refine ⟨‹_›, ?_⟩
      unfold State.inputExhausted at h
      split at h
      · obtain ⟨h1, h2⟩ := onCell_next h; cases h2; exact .inl ⟨h1, rfl⟩
      · cases h; exact .inr (.inl rfl)
      · cases h; exact .inr (.inr rfl)
    · cases h; exact .inr (.inr ⟨‹_›, rfl⟩)
  · right; right; right; right; right; left; refine ⟨rfl, ?_⟩
    change exec .loopOpen s = _ at h; rw [exec_loopOpen] at h; obtain ⟨h1, h2⟩ := branch_next h; exact ⟨h1, by simpa [cellIsZero] using h2⟩
  · right; right; right; right; right; right; left; refine ⟨rfl, ?_⟩
    change exec .loopClose s = _ at h; rw [exec_loopClose] at h; obtain ⟨h1, h2⟩ := branch_next h; exact ⟨h1, by simpa [cellIsZero] using h2⟩
  · right; right; right; right; right; right; right; cases h; exact ⟨rfl, rfl⟩

/-- The state with another input source: more bytes, and the closing or not. -/
abbrev State.withSource (s : State) (extra : List Byte) (c : Bool) (arr : List Arrival) : State :=
  { s with input := s.input ++ extra, closed := c, arrivals := arr }

/-- A poll that finds a byte, or an end of the source, finds the same when more of the source has arrived. -/
theorem inPoll_withSource {s : State} {extra : List Byte} {c : Bool} {arr : List Arrival} (h : s.inPoll ≠ .notYet)
    (hc : s.closed = true → extra = [] ∧ c = true) : (s.withSource extra c arr).inPoll = s.inPoll := by
  unfold State.inPoll at h ⊢
  cases hi : s.input[s.inCursor]? with
  | some v =>
    have : (s.input ++ extra)[s.inCursor]? = some v := by
      rw [List.getElem?_append_left (List.getElem?_eq_some_iff.1 hi).1, hi]
    simp only [this]
  | none =>
    rw [hi] at h
    cases hcl : s.closed with
    | false => simp [hcl] at h
    | true =>
      obtain ⟨rfl, rfl⟩ := hc hcl
      simp [hi]

/-- A bracket does not look at the input source. -/
theorem branchIf_withSource {s s' : State} {f : Byte → Bool} {extra : List Byte} {c : Bool} {arr : List Arrival}
    (h : s.branchIf f = .next s') :
    (s.withSource extra c arr).branchIf f = .next (s'.withSource extra c arr) := by
  obtain ⟨h1, ⟨h2, j, h3, rfl⟩ | ⟨h2, rfl⟩⟩ := branch_next h <;> rw [branch_eq] <;>
    refine (onCell_true (s := s.withSource extra c arr) h1).trans ?_
  · rw [if_pos (show f (s.withSource extra c arr).cell = true from h2)]
    simp only [State.jumpToPartner, h3]
    rfl
  · rw [if_neg (by rw [show f (s.withSource extra c arr).cell = false from h2]; simp)]
    rfl

/-- What an instruction that does not hold computes does not depend on how much more of the source has arrived. -/
theorem exec_withSource {s s' : State} {t : Token} {extra : List Byte} {c : Bool} {arr : List Arrival}
    (hc : s.closed = true → extra = [] ∧ c = true) (hh : ¬(t = .input ∧ SourceWaits s))
    (h : exec t.toInstr s = .next s') :
    exec t.toInstr (s.withSource extra c arr) = .next (s'.withSource extra c arr) := by
  cases t with
  | input =>
    have hn : s.inPoll ≠ .notYet := fun e => hh ⟨rfl, poll_notYet.1 e⟩
    change exec .input s = _ at h
    change exec .input _ = _
    rw [exec_input] at h ⊢
    rw [inPoll_withSource hn hc]
    cases hp : s.inPoll with
    | byte b =>
      rw [hp] at h
      obtain ⟨h1, h2⟩ := onCell_next h
      cases h2
      exact (onCell_true (s := s.withSource extra c arr) h1).trans rfl
    | exhausted =>
      rw [hp] at h
      simp only [State.inputExhausted] at h ⊢
      cases he : s.cfg.eofPolicy <;> simp only [he] at h ⊢
      · obtain ⟨h1, h2⟩ := onCell_next h
        cases h2
        exact (onCell_true (s := s.withSource extra c arr) h1).trans rfl
      · cases h; rfl
      · cases h; rfl
    | notYet => exact absurd hp hn
  | moveRight =>
    change exec .moveRight s = _ at h
    change exec .moveRight _ = _
    rw [exec_moveRight] at h ⊢
    rw [show (s.withSource extra c arr).atTapeEnd = s.atTapeEnd from rfl]
    split_ifs at h ⊢ <;> cases h <;> rfl
  | moveLeft =>
    change exec .moveLeft s = _ at h
    change exec .moveLeft _ = _
    rw [exec_moveLeft] at h ⊢
    split_ifs at h ⊢
    · cases hp : s.cfg.underflowPolicy <;> simp only [hp] at h ⊢ <;> cases h <;> rfl
    · cases h; rfl
  | increment =>
    obtain ⟨h1, h2⟩ := onCell_next ((exec_increment s).symm.trans h)
    cases h2
    exact (exec_increment _).trans ((onCell_true (s := s.withSource extra c arr) h1).trans rfl)
  | decrement =>
    obtain ⟨h1, h2⟩ := onCell_next ((exec_decrement s).symm.trans h)
    cases h2
    exact (exec_decrement _).trans ((onCell_true (s := s.withSource extra c arr) h1).trans rfl)
  | output =>
    obtain ⟨h1, h2⟩ := onCell_next ((exec_output s).symm.trans h)
    cases h2
    exact (exec_output _).trans ((onCell_true (s := s.withSource extra c arr) h1).trans rfl)
  | loopOpen =>
    exact (exec_loopOpen _).trans (branchIf_withSource ((exec_loopOpen s).symm.trans h))
  | loopClose =>
    exact (exec_loopClose _).trans (branchIf_withSource ((exec_loopClose s).symm.trans h))
  | endOfProgram => cases h; rfl

/-- A landed schedule is more of the source, and nothing that is closed already changes. -/
theorem land_eq (l : List Arrival) (cl : Bool) : ∃ extra c, (cl = true → extra = [] ∧ c = true) ∧
    ∀ u : State, u.closed = cl → u.land l = u.withSource extra c u.arrivals := by
  induction l generalizing cl with
  | nil => exact ⟨[], cl, fun h => ⟨rfl, h⟩, fun u h => by subst h; simp [State.land, State.withSource]⟩
  | cons a l ih =>
    cases a with
    | byte b =>
      obtain ⟨extra, c, h1, h2⟩ := ih cl
      cases cl with
      | true => exact ⟨extra, c, h1, fun u hu => by rw [State.land, State.hostByte, if_pos hu]; exact h2 u hu⟩
      | false =>
        refine ⟨b :: extra, c, by simp, fun u hu => ?_⟩
        rw [State.land, State.hostByte, if_neg (by simp [hu]), h2 _ (by exact hu)]
        simp
    | close =>
      obtain ⟨extra, c, h1, h2⟩ := ih true
      obtain ⟨rfl, rfl⟩ := h1 rfl
      exact ⟨[], true, fun _ => ⟨rfl, rfl⟩, fun u _ => by rw [State.land, State.hostClose, h2 _ rfl]⟩

/-- The HOST's next action, landed in a hold, is one of its schedule. -/
theorem landed_hostArrival (s : State) : s.hostArrival.landed = s.landed := by
  unfold State.hostArrival
  split
  · rfl
  · rename_i b rest h
    simp only [State.landed, State.hostByte, h, State.land]
    split_ifs <;> rfl
  · rename_i rest h
    simp only [State.landed, State.hostClose, h, State.land]

/-- The DECODER's step. -/
theorem step_decoder {s : State} (ha : s.active = .decoder) (hc : s.cfg.wf = true) : step s = .next (runDecoder s) := by
  simp [step, cycle, ha, hc]

/-- The LOADER's step. -/
theorem step_loader {s : State} (ha : s.active = .loader) (hc : s.cfg.wf = true) : step s = .next (runLoader s) := by
  simp [step, cycle, ha, hc]

/-- The step of a running engine below its limit. -/
theorem step_engine {s : State} {t : Token} (h : Fetches s t) : step s = if s.holds t then .next s.hostArrival else retire (exec t.toInstr s) := by
  obtain ⟨h1, h2, h3, h4, h5⟩ := h
  simp [step, cycle, h1, h2, h3, engineStep, limitReached_false.2 h4, State.fetch, h5]

/-- The step counter of a completed instruction. -/
theorem retire_next {s : State} (h : ∀ e, s.status ≠ .faulted e) : retire (.next s) = .next s.countStep := by
  unfold retire; cases h3 : s.status <;> simp_all

/-- An instruction that raised counts nothing. -/
theorem retire_faulted {s : State} {e : Err} (h : s.status = .faulted e) : retire (.next s) = .next s := by
  unfold retire; simp [h]

/-- What the step counter makes of an outcome, when it answers a next state. -/
theorem retire_cases {r : Result} {s' : State} (h : retire r = .next s') : ∃ s1, r = .next s1 ∧
    ((∃ e, s1.status = .faulted e) ∧ s' = s1 ∨ (∀ e, s1.status ≠ .faulted e) ∧ s' = s1.countStep) := by
  cases r with
  | next s1 =>
    refine ⟨s1, rfl, ?_⟩
    by_cases hf : ∃ e, s1.status = .faulted e
    · obtain ⟨e, he⟩ := hf
      rw [retire_faulted he] at h
      cases h
      exact .inl ⟨⟨e, he⟩, rfl⟩
    · rw [retire_next (fun e he => hf ⟨e, he⟩)] at h
      cases h
      exact .inr ⟨fun e he => hf ⟨e, he⟩, rfl⟩
  | fault f => cases h
  | refused f => cases h

/-- Everything the ENGINE's step can do when it answers a next state. -/
theorem engine_step_cases {s s' : State} (ha : s.active = .engine) (h : step s = .next s') :
    s.cfg.wf = true ∧
    ((s.status ≠ .running ∧ s' = s.finish (.ran s.status s.out)) ∨
     (s.status = .running ∧
      ((s.limitReached = true ∧ s' = s.raise (.stepLimitExceeded s.ip s.steps)) ∨
       (∃ t, Fetches s t ∧
        ((t = .input ∧ SourceWaits s ∧ s' = s.hostArrival) ∨
         (¬(t = .input ∧ SourceWaits s) ∧ retire (exec t.toInstr s) = .next s')))))) := by
  simp only [step, cycle, ha] at h
  split_ifs at h with hc
  refine ⟨hc, ?_⟩
  cases hr : s.status with
  | halted => left; rw [hr] at h; cases h; exact ⟨by simp, by simp [State.returnRun, hr]⟩
  | faulted e => left; rw [hr] at h; cases h; exact ⟨by simp, by simp [State.returnRun, hr]⟩
  | running =>
    right
    refine ⟨rfl, ?_⟩
    rw [hr] at h
    simp only [engineStep] at h
    by_cases hl : s.limitReached = true
    · rw [if_pos hl] at h; cases h; exact .inl ⟨hl, rfl⟩
    · rw [if_neg hl] at h
      cases hf : s.fetch with
      | none => rw [hf] at h; cases h
      | some t =>
        right
        refine ⟨t, ⟨ha, hc, hr, limitReached_false.1 (by simpa using hl), hf⟩, ?_⟩
        rw [hf] at h
        simp only at h
        split_ifs at h with hh
        · cases h; obtain ⟨a, b⟩ := holds_iff.1 hh; exact .inl ⟨a, b, rfl⟩
        · exact .inr ⟨fun x => hh (holds_iff.2 x), h⟩

/-- Two stretches of steps. -/
theorem run_add (n m : Nat) (s s1 : State) (h : Host.Core.run core n s = .next s1) :
    Host.Core.run core (n + m) s = Host.Core.run core m s1 := by
  induction n generalizing s with
  | zero => cases h; rw [Nat.zero_add]
  | succ n ih =>
    rw [show n + 1 + m = (n + m) + 1 by omega]
    simp only [Host.Core.run] at h ⊢
    cases hs : core.step s with
    | next s' => rw [hs] at h; exact ih _ h
    | fault f => rw [hs] at h; cases h
    | refused f => rw [hs] at h; cases h

end Sys2Proof.Machine
end

