-- ==== Sys2Proof/Laws/Loader.lean ====
section
/-! SUPPORT. The laws of the loader: bracket depth, the stack of a scanned prefix, and everything the bracket scan and Load
can do. -/

namespace Sys2Proof.Machine

/-- The depth of two stretches. -/
theorem depth_append (a b) : bracketDepth (a ++ b) = bracketDepth a + bracketDepth b := by simp [bracketDepth]

/-- The depth with one token before. -/
theorem depth_cons (t b) : bracketDepth (t :: b) = bracketWeight t + bracketDepth b := by simp [bracketDepth]

@[simp] theorem depth_nil : bracketDepth [] = 0 := rfl

/-- No prefix of two stretches goes below. -/
theorem neverBelow_append {a b} (ha : NeverBelow a) (hb : ∀ k, 0 ≤ bracketDepth a + bracketDepth (b.take k)) : NeverBelow (a ++ b) := by
  intro k
  rw [List.take_append, depth_append]
  rcases Nat.le_total k a.length with h | h
  · have : k - a.length = 0 := by omega
    simp [this]; exact ha k
  · rw [List.take_of_length_le h]; exact hb _

/-- A prefix of what never goes below never goes below. -/
theorem neverBelow_left {a b} (h : NeverBelow (a ++ b)) : NeverBelow a := by
  intro k
  have := h (min k a.length)
  rw [List.take_append_of_le_length (by omega)] at this
  have e : a.take (min k a.length) = a.take k := by
    rcases Nat.le_total k a.length with h | h
    · rw [Nat.min_eq_left h]
    · rw [Nat.min_eq_right h, List.take_of_length_le h, List.take_of_length_le le_rfl]
  rwa [e] at this

/-- What never goes below has no negative depth. -/
theorem neverBelow_depth {a} (h : NeverBelow a) : 0 ≤ bracketDepth a := by
  have := h a.length; rwa [List.take_length] at this

/-- The empty stretch is balanced. -/
theorem balanced_nil : Balanced [] := ⟨fun k => by simp, rfl⟩

/-- Two balanced stretches are balanced. -/
theorem balanced_append {a b} (ha : Balanced a) (hb : Balanced b) : Balanced (a ++ b) := by
  refine ⟨neverBelow_append ha.1 fun k => ?_, by rw [depth_append, ha.2, hb.2]; rfl⟩
  rw [ha.2]; have := hb.1 k; omega

/-- A token that is no bracket is balanced. -/
theorem balanced_single {t} (h : bracketWeight t = 0) : Balanced [t] := by
  refine ⟨fun k => ?_, by simp [depth_cons, h]⟩
  cases k <;> simp [depth_cons, h]

/-- Brackets around a balanced stretch are balanced. -/
theorem balanced_wrap {b} (h : Balanced b) : Balanced (.loopOpen :: b ++ [.loopClose]) := by
  refine ⟨neverBelow_append (a := .loopOpen :: b) ?_ ?_, ?_⟩
  · intro k
    cases k with
    | zero => simp
    | succ k => rw [List.take_succ_cons, depth_cons]; have := h.1 k; simp [bracketWeight]; omega
  · intro k
    rw [depth_cons, h.2]
    cases k <;> simp [depth_cons, bracketWeight]
  · rw [depth_append, depth_cons, h.2]; simp [depth_cons, bracketWeight]

/-- A LoopClose at depth 0 goes below. -/
theorem not_balanced_close {a b} (ha : bracketDepth a = 0) : ¬ NeverBelow (a ++ .loopClose :: b) := by
  intro h
  have := h (a.length + 1)
  rw [List.take_append, List.take_of_length_le (by omega)] at this
  simp [depth_append, ha, depth_cons, bracketWeight] at this

/-- The LoopOpens at the stack's positions are the unmatched ones of a scanned prefix. -/
def OpenStack : List Token → List Nat → Prop
  | pre, [] => Balanced pre
  | pre, j :: st => pre[j]? = some .loopOpen ∧ Balanced (pre.drop (j + 1)) ∧ OpenStack (pre.take j) st

/-- The innermost unmatched LoopOpen splits the prefix. -/
theorem seg_split {pre j st} (h : OpenStack pre (j :: st)) : ∃ a b, pre = a ++ .loopOpen :: b ∧ a.length = j ∧ Balanced b ∧ OpenStack a st := by
  obtain ⟨h1, h2, h3⟩ := h
  obtain ⟨hl, he⟩ := List.getElem?_eq_some_iff.1 h1
  refine ⟨pre.take j, pre.drop (j + 1), ?_, by simp; omega, h2, h3⟩
  rw [← he, ← List.drop_eq_getElem_cons hl, List.take_append_drop]

/-- One more unmatched LoopOpen. -/
theorem seg_mk {a b st} (hb : Balanced b) (ha : OpenStack a st) : OpenStack (a ++ .loopOpen :: b) (a.length :: st) := by
  refine ⟨by simp, ?_, by simpa using ha⟩
  have : List.drop (a.length + 1) (a ++ Token.loopOpen :: b) = b := by
    rw [List.drop_append]; simp
  rw [this]; exact hb

/-- A balanced stretch leaves the stack. -/
theorem seg_append {q st X} (hX : Balanced X) (h : OpenStack q st) : OpenStack (q ++ X) st := by
  cases st with
  | nil => exact balanced_append h hX
  | cons j st =>
    obtain ⟨a, b, rfl, rfl, hb, ha⟩ := seg_split h
    rw [List.append_assoc, List.cons_append]
    exact seg_mk (balanced_append hb hX) ha

/-- The stack is as high as the prefix is deep. -/
theorem seg_depth {pre st} (h : OpenStack pre st) : bracketDepth pre = st.length ∧ NeverBelow pre := by
  induction st generalizing pre with
  | nil => exact ⟨h.2, h.1⟩
  | cons j st ih =>
    obtain ⟨a, b, rfl, rfl, hb, ha⟩ := seg_split h
    obtain ⟨h1, h2⟩ := ih ha
    refine ⟨?_, neverBelow_append h2 fun k => ?_⟩
    · rw [depth_append, depth_cons, h1, hb.2]; simp [bracketWeight]
    · cases k with
      | zero => simp [h1]
      | succ k => rw [List.take_succ_cons, depth_cons, h1]; have := hb.1 k; simp [bracketWeight]; omega

/-- A prefix has one stack. -/
theorem seg_unique {pre st st'} (h : OpenStack pre st) (h' : OpenStack pre st') : st = st' := by
  induction st generalizing pre st' with
  | nil =>
    have := (seg_depth h).1.symm.trans (seg_depth h').1
    cases st' with
    | nil => rfl
    | cons => simp at this; omega
  | cons j st ih =>
    cases st' with
    | nil => have := (seg_depth h).1.symm.trans (seg_depth h').1; simp at this; omega
    | cons j' st' =>
      have key : ∀ {j j' st st'}, OpenStack pre (j :: st) → OpenStack pre (j' :: st') → ¬ j < j' := by
        intro j j' st st' h h' hlt
        obtain ⟨-, hb, -⟩ := h
        obtain ⟨a, b, he, hl, hb', -⟩ := seg_split h'
        subst hl
        rw [he, List.drop_append_of_le_length (by omega)] at hb
        have h1 := hb.2
        rw [depth_append, depth_cons, hb'.2] at h1
        have h2 := neverBelow_depth (neverBelow_left hb.1)
        simp [bracketWeight] at h1
        omega
      have e : j = j' := by
        have := key h h'; have := key h' h; omega
      subst e
      rw [ih h.2.2 h'.2.2]

/-- The stack holds falling positions of LoopOpens. -/
theorem seg_stack {pre st} (h : OpenStack pre st) : (∀ s ∈ st, s < pre.length ∧ pre[s]? = some .loopOpen) ∧ st.Pairwise (· > ·) := by
  induction st generalizing pre with
  | nil => simp
  | cons j st ih =>
    obtain ⟨a, b, rfl, rfl, hb, ha⟩ := seg_split h
    obtain ⟨h1, h2⟩ := ih ha
    refine ⟨?_, ?_⟩
    · intro s hs
      rcases List.mem_cons.1 hs with rfl | hs
      · simp
      · have := h1 s hs
        refine ⟨by simp; omega, ?_⟩
        rw [List.getElem?_append_left this.1]; exact this.2
    · rw [List.pairwise_cons]
      exact ⟨fun s hs => (h1 s hs).1, h2⟩

/-- A prefix that never goes below has a stack. -/
theorem neverBelow_seg (p : List Token) (h : NeverBelow p) : ∃ st, OpenStack p st := by
  induction p using List.reverseRecOn with
  | nil => exact ⟨[], balanced_nil⟩
  | append_singleton p t ih =>
    obtain ⟨st, hst⟩ := ih (neverBelow_left h)
    by_cases ho : t = .loopOpen
    · subst ho; exact ⟨_, seg_mk balanced_nil hst⟩
    · by_cases hc : t = .loopClose
      · subst hc
        cases st with
        | nil => exact absurd h (not_balanced_close (b := []) hst.2)
        | cons j st =>
          obtain ⟨a, b, rfl, rfl, hb, ha⟩ := seg_split hst
          exact ⟨st, by simpa using seg_append (balanced_wrap hb) ha⟩
      · exact ⟨st, seg_append (balanced_single (by simp [bracketWeight, ho, hc])) hst⟩

/-- The jump table of a scanned prefix with its stack. -/
structure ScanInv (pre : List Token) (st : List Nat) (jt : JumpTable) : Prop where
  defined : ∀ i, (JumpTable.target jt i).isSome = true ↔ IsBracketAt pre i ∧ i ∉ st
  bid : ∀ i j, JumpTable.target jt i = some j → JumpTable.target jt j = some i
  fo : ∀ i j, JumpTable.target jt i = some j → pre[i]? = some .loopOpen → i < j ∧ pre[j]? = some .loopClose
  fc : ∀ i j, JumpTable.target jt i = some j → pre[i]? = some .loopClose → j < i ∧ pre[j]? = some .loopOpen
  inside : ∀ j i, JumpTable.target jt j = some i → j < i → Balanced ((pre.drop (j + 1)).take (i - (j + 1)))
  nested : ∀ j i k m, JumpTable.target jt j = some i → JumpTable.target jt k = some m → j < k → k < i → j < m ∧ m < i
  nest : ∀ j i s, JumpTable.target jt j = some i → s ∈ st → j < s → i < s

/-- The table stays inside the prefix. -/
theorem ScanInv.lt {pre st jt} (h : ScanInv pre st jt) {i j} (hij : JumpTable.target jt i = some j) : i < pre.length ∧ j < pre.length := by
  have key : ∀ {a b}, JumpTable.target jt a = some b → a < pre.length := by
    intro a b hab
    have := ((h.defined a).1 (by simp [hab])).1
    rcases this with h | h <;> exact (List.getElem?_eq_some_iff.1 h).1
  exact ⟨key hij, key (h.bid _ _ hij)⟩

/-- Brackets of a longer prefix. -/
theorem isBracket_append {pre t i} (h : i < pre.length) : IsBracketAt (pre ++ [t]) i ↔ IsBracketAt pre i := by
  unfold IsBracketAt; rw [List.getElem?_append_left h]

/-- A bracket stands inside the prefix. -/
theorem isBracket_lt {pre i} (h : IsBracketAt pre i) : i < pre.length := by
  rcases h with h | h <;> exact (List.getElem?_eq_some_iff.1 h).1

/-- A stretch inside a longer prefix. -/
theorem seg_drop_take {pre : List Token} {t : Token} {j i : Nat} (hi : i ≤ pre.length) :
    ((pre ++ [t]).drop (j + 1)).take (i - (j + 1)) = (pre.drop (j + 1)).take (i - (j + 1)) := by
  rw [← List.drop_take, ← List.drop_take, List.take_append_of_le_length hi]

/-- A token that is no LoopClose keeps the table right. -/
theorem ScanInv.push {pre st jt} (h : ScanInv pre st jt) (t : Token) (st' : List Nat) (ht : t ≠ .loopClose)
    (hst : st' = if t = .loopOpen then pre.length :: st else st) : ScanInv (pre ++ [t]) st' jt := by
  have old : ∀ {i}, i < pre.length → (pre ++ [t])[i]? = pre[i]? := fun hi => List.getElem?_append_left hi
  refine ⟨?_, h.bid, ?_, ?_, ?_, h.nested, ?_⟩
  · intro i
    rw [h.defined]
    rcases Nat.lt_trichotomy i pre.length with hi | hi | hi
    · rw [isBracket_append hi, hst]
      split_ifs <;> simp [show i ≠ pre.length by omega]
    · have n1 : ¬ IsBracketAt pre i := fun hb => by have := isBracket_lt hb; omega
      have e : (pre ++ [t])[i]? = some t := by simp [hi]
      unfold IsBracketAt at n1 ⊢
      rw [e, hst]
      simp only [Option.some.injEq, ht, or_false]
      by_cases h2 : t = .loopOpen
      · simp [h2, hi]
      · simp [h2, hi]
    · have n1 : ¬ IsBracketAt pre i := fun hb => by have := isBracket_lt hb; omega
      have n2 : ¬ IsBracketAt (pre ++ [t]) i := fun hb => by have := isBracket_lt hb; simp at this; omega
      simp [n1, n2]
  · intro i j hij ho
    obtain ⟨h1, h2⟩ := h.lt hij
    rw [old h1] at ho; rw [old h2]; exact h.fo _ _ hij ho
  · intro i j hij ho
    obtain ⟨h1, h2⟩ := h.lt hij
    rw [old h1] at ho; rw [old h2]; exact h.fc _ _ hij ho
  · intro j i hji hlt'
    rw [seg_drop_take (by have := (h.lt hji).2; omega)]
    exact h.inside _ _ hji hlt'
  · intro j i s hji hs hjs
    rw [hst] at hs
    split_ifs at hs
    · rcases List.mem_cons.1 hs with rfl | hs
      · exact (h.lt hji).2
      · exact h.nest _ _ _ hji hs hjs
    · exact h.nest _ _ _ hji hs hjs

/-- A LoopClose pairs with the top of the stack. -/
theorem ScanInv.pop {pre j st jt} (h : ScanInv pre (j :: st) jt) (hs : OpenStack pre (j :: st)) :
    ScanInv (pre ++ [.loopClose]) st (JumpTable.pair jt j pre.length) := by
  obtain ⟨s1, s2⟩ := seg_stack hs
  have hj := s1 j (by simp)
  rw [List.pairwise_cons] at s2
  have hjst : j ∉ st := fun hm => absurd (s2.1 j hm) (by omega)
  have old : ∀ {i}, i < pre.length → (pre ++ [Token.loopClose])[i]? = pre[i]? := fun hi => List.getElem?_append_left hi
  have last : (pre ++ [Token.loopClose])[pre.length]? = some .loopClose := by simp
  have hjn : JumpTable.target jt j = none := by
    by_contra hne
    have := (h.defined j).1 (Option.isSome_iff_ne_none.2 hne)
    exact this.2 (by simp)
  have hnn : JumpTable.target jt pre.length = none := by
    by_contra hne
    obtain ⟨v, hv⟩ := Option.ne_none_iff_exists'.1 hne
    have := (h.lt hv).1; omega
  -- cases of the new table
  have cases' : ∀ {a b}, JumpTable.target (JumpTable.pair jt j pre.length) a = some b →
      (a = pre.length ∧ b = j) ∨ (a = j ∧ b = pre.length) ∨ (JumpTable.target jt a = some b ∧ a ≠ j ∧ a < pre.length ∧ b ≠ j ∧ b < pre.length) := by
    intro a b hab
    rw [JumpTable.target_pair] at hab
    split_ifs at hab with h1 h2
    · left; cases hab; exact ⟨h1.symm, rfl⟩
    · right; left; cases hab; exact ⟨h2.symm, rfl⟩
    · right; right
      refine ⟨hab, fun e => h2 e.symm, (h.lt hab).1, ?_, (h.lt hab).2⟩
      rintro rfl
      have := h.bid _ _ hab
      rw [hjn] at this; cases this
  have mkOld : ∀ {a b}, JumpTable.target jt a = some b → JumpTable.target (JumpTable.pair jt j pre.length) a = some b := by
    intro a b hab
    rw [JumpTable.target_pair, if_neg, if_neg, hab]
    · rintro rfl; rw [hjn] at hab; cases hab
    · rintro rfl; rw [hnn] at hab; cases hab
  have mkJ : JumpTable.target (JumpTable.pair jt j pre.length) j = some pre.length := by
    rw [JumpTable.target_pair, if_neg (by omega), if_pos rfl]
  have mkN : JumpTable.target (JumpTable.pair jt j pre.length) pre.length = some j := by
    rw [JumpTable.target_pair, if_pos rfl]
  refine ⟨?_, ?_, ?_, ?_, ?_, ?_, ?_⟩
  · intro i
    rcases Nat.lt_trichotomy i pre.length with hi | hi | hi
    · rw [isBracket_append hi]
      by_cases hij : i = j
      · subst hij; rw [mkJ]; simp [hjst]; exact .inl hj.2
      · have := h.defined i
        rw [JumpTable.target_pair, if_neg (by omega), if_neg (fun e => hij e.symm), this]
        simp [hij]
    · subst hi; rw [mkN]; simp
      refine ⟨.inr last, fun hm => ?_⟩
      have := s2.1 _ hm; omega
    · have n2 : ¬ IsBracketAt (pre ++ [.loopClose]) i := fun hb => by have := isBracket_lt hb; simp at this; omega
      rw [JumpTable.target_pair, if_neg (by omega), if_neg (by omega), h.defined]
      have n1 : ¬ IsBracketAt pre i := fun hb => by have := isBracket_lt hb; omega
      simp [n1, n2]
  · intro a b hab
    rcases cases' hab with ⟨rfl, rfl⟩ | ⟨rfl, rfl⟩ | ⟨h1, -⟩
    · exact mkJ
    · exact mkN
    · exact mkOld (h.bid _ _ h1)
  · intro a b hab ho
    rcases cases' hab with ⟨rfl, rfl⟩ | ⟨rfl, rfl⟩ | ⟨h1, h2, h3, h4, h5⟩
    · rw [last] at ho; cases ho
    · exact ⟨hj.1, last⟩
    · rw [old h3] at ho; rw [old h5]; exact h.fo _ _ h1 ho
  · intro a b hab ho
    rcases cases' hab with ⟨rfl, rfl⟩ | ⟨rfl, rfl⟩ | ⟨h1, h2, h3, h4, h5⟩
    · exact ⟨hj.1, by rw [old hj.1]; exact hj.2⟩
    · rw [old hj.1, hj.2] at ho; cases ho
    · rw [old h3] at ho; rw [old h5]; exact h.fc _ _ h1 ho
  · intro a b hab hlt
    rcases cases' hab with ⟨rfl, rfl⟩ | ⟨rfl, rfl⟩ | ⟨h1, h2, h3, h4, h5⟩
    · omega
    · rw [seg_drop_take le_rfl, List.take_of_length_le (by simp)]; exact hs.2.1
    · rw [seg_drop_take (by omega)]; exact h.inside _ _ h1 hlt
  · intro a b k m hab hkm hak hkb
    rcases cases' hab with ⟨rfl, rfl⟩ | ⟨rfl, rfl⟩ | ⟨h1, h2, h3, h4, h5⟩
    · omega
    · rcases cases' hkm with ⟨rfl, rfl⟩ | ⟨rfl, rfl⟩ | ⟨g1, g2, g3, g4, g5⟩
      · omega
      · omega
      · refine ⟨?_, g5⟩
        by_contra hma
        have hma' : m < a := by omega
        have := h.nest _ _ a (h.bid _ _ g1) (by simp) hma'
        omega
    · rcases cases' hkm with ⟨rfl, rfl⟩ | ⟨rfl, rfl⟩ | ⟨g1, -⟩
      · omega
      · have := h.nest _ _ k h1 (by simp) hak; omega
      · exact h.nested _ _ _ _ h1 g1 hak hkb
  · intro a b s hab hs' has
    rcases cases' hab with ⟨rfl, rfl⟩ | ⟨rfl, rfl⟩ | ⟨h1, h2, h3, h4, h5⟩
    · have := s2.1 _ hs'; omega
    · have := s2.1 _ hs'; omega
    · exact h.nest _ _ s h1 (List.mem_cons_of_mem _ hs') has

/-- The empty table is right for the empty prefix. -/
theorem jinv_nil : ScanInv [] [] [] := by
  refine ⟨?_, ?_, ?_, ?_, ?_, ?_, ?_⟩ <;> simp [JumpTable.target, IsBracketAt]

/-- Everything the bracket scan can do from a scanned prefix. -/
theorem scan_spec (rest : List Token) (pre : List Token) (w : LoaderWork) (hi : w.index = pre.length)
    (hs : OpenStack pre w.stack) (hj : ScanInv pre w.stack w.jt) :
    (∃ w', bracketScan rest w = .ok w' ∧ OpenStack (pre ++ rest) [] ∧ ScanInv (pre ++ rest) [] w'.jt) ∨
    (∃ a b, rest = a ++ .loopClose :: b ∧ Balanced (pre ++ a) ∧ bracketScan rest w = .error (pre ++ a).length) ∨
    (∃ j st, OpenStack (pre ++ rest) (j :: st) ∧ bracketScan rest w = .error j) := by
  induction rest generalizing pre w with
  | nil =>
    rw [bracketScan]
    cases hst : w.stack with
    | nil => left; rw [hst] at hs hj; exact ⟨w, rfl, by simpa using hs, by simpa using hj⟩
    | cons j st => right; right; rw [hst] at hs; exact ⟨j, st, by simpa using hs, rfl⟩
  | cons t rest ih =>
    obtain ⟨s1, s2⟩ := seg_stack hs
    have e : pre ++ t :: rest = (pre ++ [t]) ++ rest := by simp
    have lift : ∀ w', w'.index = (pre ++ [t]).length → OpenStack (pre ++ [t]) w'.stack → ScanInv (pre ++ [t]) w'.stack w'.jt →
        bracketScan (t :: rest) w = bracketScan rest w' →
        ((∃ w', bracketScan (t :: rest) w = .ok w' ∧ OpenStack (pre ++ t :: rest) [] ∧ ScanInv (pre ++ t :: rest) [] w'.jt) ∨
        (∃ a b, t :: rest = a ++ .loopClose :: b ∧ Balanced (pre ++ a) ∧ bracketScan (t :: rest) w = .error (pre ++ a).length) ∨
        (∃ j st, OpenStack (pre ++ t :: rest) (j :: st) ∧ bracketScan (t :: rest) w = .error j)) := by
      intro w' h1 h2 h3 h4
      rw [h4, e]
      rcases ih _ w' h1 h2 h3 with h | ⟨a, b, h5, h6, h7⟩ | h
      · exact .inl h
      · right; left
        exact ⟨t :: a, b, by simp [h5], by simpa using h6, by rw [h7]; simp⟩
      · exact .inr (.inr h)
    by_cases ho : t = .loopOpen
    · refine lift { w with stack := w.index :: w.stack, index := w.index + 1 } (by simp [hi]) ?_ ?_ (by rw [bracketScan, if_pos ho])
      · rw [ho]; simp only [hi]; exact seg_mk balanced_nil hs
      · exact hj.push t _ (by simp [ho]) (by simp [ho, hi])
    · by_cases hc : t = .loopClose
      · subst hc
        cases hst : w.stack with
        | nil =>
          right; left
          rw [hst] at hs
          exact ⟨[], rest, rfl, by simpa using (show Balanced pre from hs), by rw [bracketScan, if_neg ho, if_pos rfl, hst]; simp [hi]⟩
        | cons j st =>
          rw [hst] at hs hj
          refine lift { w with stack := st, jt := JumpTable.pair w.jt j w.index, index := w.index + 1 } (by simp [hi]) ?_ ?_
            (by rw [bracketScan, if_neg ho, if_pos rfl, hst])
          · obtain ⟨a, b, rfl, rfl, hb, ha⟩ := seg_split hs
            have := seg_append (balanced_wrap hb) ha
            simpa using this
          · simp only [hi]; exact hj.pop hs
      · refine lift { w with index := w.index + 1 } (by simp [hi]) ?_ ?_ (by rw [bracketScan, if_neg ho, if_neg hc])
        · exact seg_append (balanced_single (by simp [bracketWeight, ho, hc])) hs
        · exact hj.push t _ hc (by simp [ho])

/-- Everything Load can do. -/
theorem load_spec (ts : List Token) :
    (∃ jt, load ts = .ok (normalise ts, jt) ∧ Balanced (normalise ts) ∧ ScanInv (normalise ts) [] jt) ∨
    (∃ a b, normalise ts = a ++ .loopClose :: b ∧ Balanced a ∧ load ts = .error (.unmatchedBracket a.length)) ∨
    (∃ j st, OpenStack (normalise ts) (j :: st) ∧ load ts = .error (.unmatchedBracket j)) := by
  have := scan_spec (normalise ts) [] ⟨ts, 0, [], []⟩ rfl balanced_nil jinv_nil
  unfold load loadFrom
  simp only [List.drop_zero]
  rcases this with ⟨w', h1, h2, h3⟩ | ⟨a, b, h1, h2, h3⟩ | ⟨j, st, h1, h2⟩
  · left; rw [h1]; exact ⟨w'.jt, rfl, h2, h3⟩
  · right; left; rw [h3]; exact ⟨a, b, h1, h2, rfl⟩
  · right; right; rw [h2]; exact ⟨j, st, h1, rfl⟩

end Sys2Proof.Machine
end

