-- ==== Sys2Proof/Laws/PerInstr.lean ====
section
/-! SUPPORT. One lemma per constructor of Instr. -/

namespace Sys2Proof.Laws.TableRoundTrip

/-- Under DT0 the table word of the instruction, which the encoder writes, decodes to the instruction (R96, R102). -/
def Statement (i : Instr) : Prop := decodeTableWord 32 (encodeWord DeltaTable.dt0 i).toNat = some i

theorem moveRight : Statement .moveRight := by unfold Statement; decide
theorem moveLeft : Statement .moveLeft := by unfold Statement; decide
theorem increment : Statement .increment := by unfold Statement; decide
theorem decrement : Statement .decrement := by unfold Statement; decide
theorem output : Statement .output := by unfold Statement; decide
theorem input : Statement .input := by unfold Statement; decide
theorem loopOpen : Statement .loopOpen := by unfold Statement; decide
theorem loopClose : Statement .loopClose := by unfold Statement; decide
theorem endOfProgram : Statement .endOfProgram := by unfold Statement; decide
theorem continuation : Statement .continuation := by unfold Statement; decide

end Sys2Proof.Laws.TableRoundTrip
end

