-- ==== Sys2Proof/Tests/Slice0.lean ====
section
/-! SUPPORT. The model's own tests. Expected results come from spec/95_test_vectors.md (named V-… or P…) and from the
tables of the other section files. The witnesses at the end show, for every statement of Obligations.lean that has
hypotheses, a concrete case that meets them. -/

namespace Sys2Proof.Tests

open Sys2Proof.Machine

/-! ### Builders -/

/-- The state of a step that answers one. -/
def next? : Result → Option State
  | .next s => some s
  | .fault _ => none
  | .refused _ => none

/-- A running engine on a program of its own. -/
def eng (prog : List Token) (jt : JumpTable) (ip : Nat) : State :=
  { State.reset with active := .engine, prog := prog, jt := jt, ip := ip }

/-- The loop `[-]` with its jump table (V-L1-7). -/
def clearLoop (ip : Nat) (v : Byte) : State :=
  { eng [.loopOpen, .decrement, .loopClose, .endOfProgram] [(0, 2), (2, 0)] ip with tape := Memory.write [] 0 v }

/-- The empty loop `[]` on a cell. -/
def emptyLoop (ip : Nat) (v : Byte) : State :=
  { eng [.loopOpen, .loopClose, .endOfProgram] [(0, 1), (1, 0)] ip with tape := Memory.write [] 0 v }

/-- A carrier of one row, from packed words. -/
def row (ws : List Nat) : Carrier := ⟨ws.length, 1, ws.map fun w => Pixel.unpack (BitVec.ofNat 32 w)⟩

/-- The default configuration with a tape of `n` cells. -/
def bounded (n : Nat) : Config := { Config.default with tapeCells := some n }

/-! ### The checks refuse ill-formed terms -/

theorem test_wf_zero_vector : { DeltaTable.dt0 with input := ⟨256, 0, -256, 0⟩ }.noZero = false := by decide
theorem test_wf_shared_vector : { DeltaTable.dt0 with input := ⟨-248, 0, 0, 256⟩ }.distinct = false := by decide
theorem test_wf_table : { DeltaTable.dt0 with input := ⟨0, 0, 0, 0⟩ }.wf = false ∧ DeltaTable.dt0.wf = true := by decide
theorem test_wf_config_table :
    { Config.default with deltaTable := { DeltaTable.dt0 with output := ⟨0, 8, 0, 0⟩ } }.wf = false := by decide
theorem test_wf_config_tape : (bounded 0).wf = false ∧ (bounded 1).wf = true := by decide
theorem test_wf_run_empty : EncodedRun.wf ⟨.increment, 0⟩ = false := by decide
theorem test_wf_run_stacked : EncodedRun.wf ⟨.output, 2⟩ = false ∧ EncodedRun.wf ⟨.increment, 2⟩ = true := by decide
theorem test_wf_tokens_early : validTokens [.increment, .endOfProgram, .increment, .endOfProgram] = false := by decide
theorem test_wf_tokens_none : validTokens [.increment] = false ∧ validTokens [.endOfProgram] = true := by decide
theorem test_wf_carrier : Carrier.wf ⟨2, 2, [Pixel.zero]⟩ = false ∧ Carrier.wf (row [1, 2]) = true := by decide

/-! ### Decoding: every row of the opcode table (R92, R96, R102) -/

theorem test_decode_moveRight : decodeTableWord 32 0x08000000 = some .moveRight := by decide
theorem test_decode_moveLeft : decodeTableWord 32 0xF8000000 = some .moveLeft := by decide
theorem test_decode_increment : decodeTableWord 32 0x00080000 = some .increment := by decide
theorem test_decode_decrement : decodeTableWord 32 0x00F80000 = some .decrement := by decide
theorem test_decode_output : decodeTableWord 32 0x00000800 = some .output := by decide
theorem test_decode_input : decodeTableWord 32 0x0000F800 = some .input := by decide
theorem test_decode_loopOpen : decodeTableWord 32 0x08000800 = some .loopOpen := by decide
theorem test_decode_loopClose : decodeTableWord 32 0xF800F800 = some .loopClose := by decide
theorem test_decode_endOfProgram : decodeTableWord 32 0x08080800 = some .endOfProgram := by decide
theorem test_decode_continuation : decodeTableWord 32 0x00000000 = some .continuation := by decide
/-- V-DEC-3, V-DEC-9: a nonzero delta that is no entry. -/
theorem test_decode_unknown : decodeTableWord 32 0x00000001 = none ∧ decodeTableWord 32 0x01000000 = none := by decide
/-- R97: which byte of the word is which channel. -/
theorem test_pack : Pixel.pack ⟨0x11, 0x22, 0x33, 0x44⟩ = 0x11223344 ∧
    Pixel.unpack 0x11223344 = ⟨0x11, 0x22, 0x33, 0x44⟩ := by decide

/-! ### Codec -/

/-- V-STK-1, V-STK-2, V-STK-5. -/
theorem test_stack :
    stack [.increment, .increment, .increment, .increment, .increment, .output, .endOfProgram] =
      [⟨.increment, 5⟩, ⟨.output, 1⟩, ⟨.endOfProgram, 1⟩] ∧
    stack [.output, .output, .endOfProgram] = [⟨.output, 1⟩, ⟨.output, 1⟩, ⟨.endOfProgram, 1⟩] ∧
    stack [.moveRight, .moveRight, .moveRight, .moveLeft, .endOfProgram] =
      [⟨.moveRight, 3⟩, ⟨.moveLeft, 1⟩, ⟨.endOfProgram, 1⟩] := by decide

/-- P2's carrier. -/
theorem test_encode_p2 :
    encode Config.default (row [9, 9, 9, 9, 9, 9, 9, 9])
      [.increment, .increment, .increment, .loopOpen, .decrement, .loopClose, .endOfProgram] =
    .ok (row [0x00080000, 0x00080000, 0x00080000, 0x08080800, 0x08000800, 0x00000000, 0x08080800, 9]) := by rfl

/-- V-ENC-4: an origin, and a channel that wraps. -/
theorem test_encode_origin :
    encode { Config.default with origin := 1 } (row [0xFC102030, 0, 0, 0, 0x09090909]) [.moveRight, .endOfProgram] =
      .ok (row [0xFC102030, 0x04102030, 0x0C182830, 0, 0x09090909]) := by rfl

/-- V-ENC-5, V-ENC-6, V-ENC-9. -/
theorem test_encode_errors :
    encode Config.default (row [0, 0, 0, 0]) [.increment, .endOfProgram, .increment, .endOfProgram] =
      .error (.invalidTokenStream 1) ∧
    encode Config.default (row [0]) [.increment] = .error (.invalidTokenStream 1) ∧
    encode { Config.default with origin := 5 } (row [0, 0]) [.endOfProgram] = .error (.insufficientCapacity 1 0) :=
  ⟨rfl, rfl, rfl⟩

/-- V-DEC-5, V-DEC-6: a continuation after Output, and a pixel after the end. -/
theorem test_decode_streams :
    decode Config.default (row [0x00000800, 0x00000800, 0x08081000]) = .ok [.output, .output, .endOfProgram] ∧
    decode Config.default (row [0x08080800, 0x01020304]) = .ok [.endOfProgram] := ⟨rfl, rfl⟩

/-- V-DEC-2, V-DEC-3, V-DEC-10. -/
theorem test_decode_errors :
    decode Config.default (row [0]) = .error (.corruptStream .leadingContinuation 0 0) ∧
    decode Config.default (row [1]) = .error (.corruptStream (.unknownDelta ⟨0, 0, 0, 1⟩) 0 0) ∧
    decode Config.default (row [0x00080000, 0]) = .error (.corruptStream .truncated 2 2) := ⟨rfl, rfl, rfl⟩

/-! ### Loader -/

/-- V-LD-3, V-LD-10. -/
theorem test_load_nested :
    load [.loopOpen, .loopOpen, .loopClose, .loopClose, .endOfProgram] =
      .ok ([.loopOpen, .loopOpen, .loopClose, .loopClose, .endOfProgram], [(0, 3), (1, 2), (2, 1), (3, 0)]) ∧
    load [.increment, .loopOpen, .decrement, .loopClose] =
      .ok ([.increment, .loopOpen, .decrement, .loopClose, .endOfProgram], [(1, 3), (3, 1)]) := ⟨rfl, rfl⟩

/-- V-LD-5, V-LD-6, V-LD-9, V-LD-11. -/
theorem test_load_errors :
    load [.loopOpen, .loopClose, .loopClose, .endOfProgram] = .error (.unmatchedBracket 2) ∧
    load [.loopClose, .loopOpen, .endOfProgram] = .error (.unmatchedBracket 0) ∧
    load [.loopOpen, .loopOpen, .endOfProgram] = .error (.unmatchedBracket 1) ∧
    load [.loopClose, .endOfProgram, .loopOpen] = .error (.unmatchedBracket 0) := ⟨rfl, rfl, rfl, rfl⟩

/-! ### The instructions, one step each -/

/-- V-PTR-1, first step. -/
theorem test_moveRight : next? (step (eng [.moveRight, .endOfProgram] [] 0)) =
    some { eng [.moveRight, .endOfProgram] [] 1 with dp := 1, steps := 1 } := by decide
/-- V-PTR-5, the last step. -/
theorem test_moveRight_overflow :
    (next? (step { eng [.moveRight, .moveRight, .moveRight, .endOfProgram] [] 2 with
      cfg := bounded 3, dp := 2, steps := 2 })).map (fun s => (s.status, s.dp, s.steps)) =
    some (.faulted (.tapeOverflow 2 2), 2, 2) := by decide
/-- V-PTR-4, the second step. -/
theorem test_moveLeft : (next? (step { eng [.moveRight, .moveLeft, .endOfProgram] [] 1 with dp := 1, steps := 1 })).map
    (fun s => (s.dp, s.ip, s.steps)) = some (0, 2, 2) := by decide
/-- V-PTR-2 and V-PTR-3. -/
theorem test_moveLeft_underflow :
    (next? (step (eng [.moveLeft, .endOfProgram] [] 0))).map (fun s => (s.status, s.dp, s.ip, s.steps)) =
      some (.faulted (.tapeUnderflow 0), 0, 0, 0) ∧
    (next? (step { eng [.moveLeft, .endOfProgram] [] 0 with
      cfg := { Config.default with underflowPolicy := .clamp } })).map (fun s => (s.status, s.dp, s.ip, s.steps)) =
      some (.running, 0, 1, 1) := by decide
/-- V-AR-3: 0xFF + 1 wraps, and the tape keeps its canonical form. -/
theorem test_increment : (next? (step { eng [.increment, .endOfProgram] [] 0 with tape := [(0, 0xFF), (3, 7)] })).map
    (fun s => s.tape) = some [(3, 7)] := by decide
/-- V-AR-2: 0 - 1 wraps. -/
theorem test_decrement : (next? (step { eng [.decrement, .endOfProgram] [] 0 with dp := 2, tape := [(3, 7)] })).map
    (fun s => (s.tape, s.ip)) = some ([(2, 0xFF), (3, 7)], 1) := by decide
/-- V-PTR-7: a cell never written reads 0; V-EC-2's first byte stays in front. -/
theorem test_output : (next? (step { eng [.output, .endOfProgram] [] 0 with dp := 1, out := [9] })).map
    (fun s => (s.out, s.dp, s.steps)) = some ([9, 0], 1, 1) := by decide
/-- V-IO-6 and V-IO-7: a zero byte is a byte, and the cursor moves. -/
theorem test_input_byte : (next? (step { eng [.input, .endOfProgram] [] 0 with
    input := [0], tape := [(0, 5)], cfg := { Config.default with eofPolicy := .terminate } })).map
    (fun s => (s.tape, s.inCursor, s.status)) = some ([], 1, .running) := by decide
/-- V-IO-2, V-IO-3, V-IO-4: the second step, under each policy. -/
theorem test_input_exhausted :
    [EofPolicy.zero, .unchanged, .terminate].map (fun p =>
      (next? (step { eng [.increment, .input, .output, .endOfProgram] [] 1 with
        tape := [(0, 1)], steps := 1, cfg := { Config.default with eofPolicy := p } })).map
        (fun s => (s.tape, s.ip, s.inCursor, s.status, s.steps))) =
    [some ([], 2, 0, .running, 2), some ([(0, 1)], 2, 0, .running, 2), some ([(0, 1)], 1, 0, .halted, 2)] := by rfl
/-- V-CF-1: LoopOpen on a zero cell. -/
theorem test_loopOpen_skip : (next? (step (clearLoop 0 0))).map (fun s => (s.ip, s.steps)) = some (2, 1) := by decide
/-- V-L1-7: LoopOpen on the cell 3. -/
theorem test_loopOpen_enter : (next? (step (clearLoop 0 3))).map (fun s => (s.ip, s.steps)) = some (1, 1) := by decide
/-- V-L1-7: LoopClose on the cell 2. -/
theorem test_loopClose_repeat : (next? (step (clearLoop 2 2))).map (fun s => (s.ip, s.steps)) = some (0, 1) := by decide
/-- V-CF-1: LoopClose on a zero cell. -/
theorem test_loopClose_leave : (next? (step (clearLoop 2 0))).map (fun s => (s.ip, s.steps)) = some (3, 1) := by decide
/-- V-CF-6. -/
theorem test_endOfProgram : next? (step (eng [.endOfProgram] [] 0)) =
    some { eng [.endOfProgram] [] 0 with status := .halted, steps := 1 } := by decide
/-- V-DEC-5's second pixel: the previous pixel was Output. -/
theorem test_continuation :
    (next? (exec .continuation { State.reset with
      active := .decoder, decoder := ⟨⟨0, 0, 8, 0⟩, some .output, 1, [.output]⟩ })).map (fun s => s.decoder) =
    some ⟨⟨0, 0, 8, 0⟩, some .output, 2, [.output, .output]⟩ := by decide
/-- V-DEC-2: a leading continuation ends the run. -/
theorem test_continuation_leading :
    (next? (step (State.reset.withFetchWord 32 0))).map (fun s => (s.active, s.responses)) =
    some (.host, [.runFailed (.corruptStream .leadingContinuation 0 0)]) := by decide

/-! ### The step around the instruction -/

/-- V-EC-4: the limit check comes first. -/
theorem test_step_limit_first : (next? (step { eng [.moveLeft, .endOfProgram] [] 0 with
    cfg := { Config.default with stepLimit := some 0 } })).map (fun s => s.status) =
    some (.faulted (.stepLimitExceeded 0 0)) := by decide
/-- V-IO-5: the Input holds, and the HOST's byte lands. -/
theorem test_step_hold : (next? (step { eng [.input, .output, .endOfProgram] [] 0 with
    closed := false, arrivals := [.byte 7] })).map (fun s => (s.ip, s.steps, s.input, s.tape)) =
    some (0, 0, [7], []) := by decide
/-- V-EC-6: the load fails, the engine never starts. -/
theorem test_step_load_fails : (next? (step { State.reset with
    active := .loader, loader := LoaderWork.start [.loopClose, .endOfProgram] })).map
    (fun s => (s.active, s.responses, s.out)) = some (.host, [.runFailed (.unmatchedBracket 0)], []) := by decide
/-- R8: an ill-formed configuration is refused. -/
theorem test_step_refuses_config :
    step { State.reset with pending := [.run (bounded 0) none [] true []] } = .refused .illFormedConfig := by rfl
/-- The next step runs the table word that withFetchWord places (R102, and the instructions' rules). -/
theorem test_placed_words :
    [0x08000000, 0x00080000, 0x00F80000, 0x00000800, 0x0000F800, 0x08000800, 0xF800F800, 0x08080800].map (fun w =>
      (next? (step (State.reset.withFetchWord 32 w))).map (fun s => (s.dp, s.tape, s.out, s.ip, s.status, s.steps))) =
    [some (1, [], [], 1, .running, 1), some (0, [(0, 1)], [], 1, .running, 1), some (0, [(0, 255)], [], 1, .running, 1),
     some (0, [], [0], 1, .running, 1), some (0, [], [], 1, .running, 1), some (0, [], [], 1, .running, 1),
     some (0, [], [], 2, .running, 1), some (0, [], [], 0, .halted, 1)] := by rfl
/-- The memory at reset has its canonical form. -/
theorem test_reset_memory : Memory.wf State.reset.tape := by decide

/-! ### Witnesses: the hypotheses of each statement, met together -/


theorem witness_RowMajorIndexIsInjective :
    (3 < (Carrier.mk 4 5 []).w ∧ 4 < (Carrier.mk 4 5 []).h) ∧
    (Carrier.mk 4 5 []).linear 3 4 = (Carrier.mk 4 5 []).linear 3 4 ∧ (Carrier.mk 4 5 []).linear 3 4 = 19 := by decide

theorem witness_TokenCodesRoundTrip : 9 ≤ (0x9 : BitVec 4).toNat ∧ 9 ≤ (0xF : BitVec 4).toNat := by decide

theorem witness_DeltaDecodesByExactMatch :
    DeltaTable.dt0.wf = true ∧ (⟨0xF8, 0, 0xF8, 0⟩ : Pixel) = DeltaTable.dt0.vectorFor .loopClose ∧
    (⟨0, 0, 0, 1⟩ : Pixel) ≠ Pixel.zero ∧ ∀ t, (⟨0, 0, 0, 1⟩ : Pixel) ≠ DeltaTable.dt0.vectorFor t :=
  ⟨by decide, by decide, by decide, fun t => by cases t <;> decide⟩

theorem witness_DecodeInvertsEncode :
    DeltaTable.dt0.wf = true ∧ decodeDelta DeltaTable.dt0 ⟨0xF8, 0, 0xF8, 0⟩ = .ok .loopClose ∧
    decodeWord DeltaTable.dt0 0xF800F800 = .ok .loopClose := ⟨by decide, rfl, rfl⟩

theorem witness_StackRunsAreMaximal :
    ⟨.output, 1⟩ ∈ stack [.output, .output, .endOfProgram] ∧ Token.stackable .output = false ∧
    (stack [.output, .output, .endOfProgram])[0]? = some ⟨.output, 1⟩ ∧
    (stack [.output, .output, .endOfProgram])[0 + 1]? = some ⟨.output, 1⟩ := by decide

theorem endsOnce_E : EndsOnce [.endOfProgram] := ⟨[], rfl, by decide⟩

theorem witness_EncodeChecksTheTokens :
    EndsOnce [.endOfProgram] ∧
    (1 + 1 < [Token.increment, .endOfProgram, .endOfProgram].length ∧
      [Token.increment, .endOfProgram, .endOfProgram][1]? = some .endOfProgram ∧
      ∀ j, j < 1 → [Token.increment, .endOfProgram, .endOfProgram][j]? ≠ some .endOfProgram) ∧
    Token.endOfProgram ∉ ([] : List Token) := ⟨endsOnce_E, by decide, by decide⟩

/-- The three sides of the boundary: no pixel left, one pixel left, and an origin past the carrier. -/
theorem witness_EncodeChecksCapacity :
    EndsOnce [.endOfProgram] ∧ (row []).w * (row []).h < Config.default.origin + 1 ∧
    Config.default.origin + 1 ≤ (row [0]).w * (row [0]).h ∧
    (row [0, 0]).w * (row [0, 0]).h < { Config.default with origin := 5 }.origin + 1 := ⟨endsOnce_E, by decide⟩

theorem witness_EncodeWritesOnlyItsRegion :
    encode { Config.default with origin := 1 } (row [0xFC102030, 0, 0, 0, 0x09090909]) [.moveRight, .endOfProgram] =
      .ok (row [0xFC102030, 0x04102030, 0x0C182830, 0, 0x09090909]) ∧
    ((row [0xFC102030, 0, 0, 0, 0x09090909]).wf = true ∧ 1 < [Token.moveRight, .endOfProgram].length) ∧
    (0 < 1 ∧ 1 + 2 ≤ 3) := ⟨rfl, by decide, by decide⟩

theorem witness_EncodedPixelsHaveTheClosedForm :
    (row [9, 9]).wf = true ∧
    encode Config.default (row [9, 9]) [.increment, .endOfProgram] = .ok (row [0x00080000, 0x08100800]) ∧
    [Token.increment, .endOfProgram][0]? = some .increment ∧ [Token.increment, .endOfProgram][1]? = some .endOfProgram :=
  ⟨by decide, rfl, rfl, rfl⟩

/-- An inject about to run: `[E]` into a carrier. -/
def injecting (c : Carrier) : State :=
  { State.reset with
    active := .encoder, carrier := c, encoder := EncoderWork.start Config.default c [.endOfProgram] }

theorem witness_InjectIsOneTransaction :
    ((injecting (row [9])).active = .encoder ∧ (injecting (row [9])).cfg.wf = true ∧
      (injecting (row [9])).encoder = EncoderWork.start Config.default (row [9]) [.endOfProgram] ∧
      (injecting (row [9])).decoder = DecoderWork.idle ∧ (injecting (row [9])).loader = LoaderWork.idle) ∧
    encode (injecting (row [9])).cfg (injecting (row [9])).carrier [.endOfProgram] = .ok (row [0x08080800]) ∧
    encode (injecting (row [])).cfg (injecting (row [])).carrier [.endOfProgram] =
      .error (.insufficientCapacity 1 0) := ⟨by decide, rfl, rfl⟩

theorem witness_DecodeIsDeterminedByTheDeltas :
    DeltaTable.dt0.wf = true ∧
    decode Config.default (row [0x00000800, 0x00000800, 0x08081000]) = .ok [.output, .output, .endOfProgram] :=
  ⟨by decide, rfl⟩

theorem witness_DecodeReadsExactlyTheStream :
    decode Config.default (row [0x08080800, 0x01020304]) = .ok [.endOfProgram] ∧
    (∀ i, i < Config.default.origin + [Token.endOfProgram].length →
      (row [0x08080800, 7]).pix[i]? = (row [0x08080800, 0x01020304]).pix[i]?) ∧
    0 < [Token.endOfProgram].length ∧
    (row []).pix = (row [0x08080800, 0x01020304]).pix.take (Config.default.origin + 0) := ⟨rfl, by decide, by decide⟩

theorem witness_DecodeRefusesLeadingContinuationAndEmptyStream :
    ((row [0]).wf = true ∧ (row [0]).pix[Config.default.origin]? = some (startPixel Config.default (row [0]))) ∧
    (row []).wf = true ∧ (row []).w * (row []).h ≤ Config.default.origin := by decide

/-- One carrier per reason. -/
theorem witness_DecodeErrorsRecordTheFailingPixel :
    (row [0]).wf = true ∧
    decode Config.default (row [0]) = .error (.corruptStream .leadingContinuation 0 0) ∧
    decode Config.default (row [0x00080000, 0x00080001]) = .error (.corruptStream (.unknownDelta ⟨0, 0, 0, 1⟩) 1 1) ∧
    decode { Config.default with origin := 3 } (row [0]) = .error (.corruptStream .truncated 0 3) ∧
    decode Config.default (row [0x00080000, 0]) = .error (.corruptStream .truncated 2 2) :=
  ⟨by decide, rfl, rfl, rfl, rfl⟩

/-- A decode at a pixel of its carrier. -/
def decoding (c : Carrier) (w : DecoderWork) : State :=
  { State.reset with active := .decoder, carrier := c, decoder := w }

theorem witness_ContinuationRepeatsThePreviousToken :
    ((decoding (row []) ⟨⟨0, 0, 8, 0⟩, some .output, 1, [.output]⟩).decoder.prevT = some .output ∧
      Token.output ≠ .endOfProgram) ∧
    (decoding (row []) ⟨Pixel.zero, none, 0, []⟩).decoder.prevT = none ∧
    (decoding (row []) ⟨Pixel.zero, some .endOfProgram, 1, []⟩).decoder.prevT = some .endOfProgram := by decide

/-- Both ways on: the decode goes on after the continuation, or the run fails at it. -/
theorem witness_DecoderRunsTheContinuationItMeets :
    (let s := decoding (row [0x00000800, 0x00000800, 0x08081000]) ⟨⟨0, 0, 8, 0⟩, some .output, 1, [.output]⟩
     s.active = .decoder ∧ s.cfg.wf = true ∧ s.carrier.pix[s.cfg.origin + s.decoder.k]? = some s.decoder.prev ∧
     (next? (exec .continuation s)).map State.active = some .decoder) ∧
    (let s := decoding (row [0]) ⟨Pixel.zero, none, 0, []⟩
     s.active = .decoder ∧ s.cfg.wf = true ∧ s.carrier.pix[s.cfg.origin + s.decoder.k]? = some s.decoder.prev ∧
     (next? (exec .continuation s)).map State.active = some .host) := by decide

theorem witness_DecodeInvertsEncodeOnCarriers :
    DeltaTable.dt0.wf = true ∧ (row [9, 9]).wf = true ∧
    encode Config.default (row [9, 9]) [.increment, .endOfProgram] = .ok (row [0x00080000, 0x08100800]) :=
  ⟨by decide, by decide, rfl⟩

theorem witness_NormaliseEndsTheProgramOnce :
    ([Token.loopClose, .endOfProgram, .loopOpen] = [.loopClose] ++ .endOfProgram :: [.loopOpen] ∧
      Token.endOfProgram ∉ [Token.loopClose]) ∧ Token.endOfProgram ∉ [Token.loopOpen] := by decide

theorem balanced_nil : Balanced [] := ⟨fun k => by simp [bracketDepth], rfl⟩

theorem balanced_E : Balanced [.endOfProgram] :=
  ⟨fun k => by rcases k with _ | k <;> simp [bracketDepth, bracketWeight], rfl⟩

theorem balanced_pair : Balanced [.loopOpen, .loopClose] :=
  ⟨fun k => by rcases k with _ | _ | k <;> simp [bracketDepth, bracketWeight], rfl⟩

/-- V-LD-5 and V-LD-6. -/
theorem witness_UnmatchedCloseIsReportedAtItsIndex :
    (normalise [.loopOpen, .loopClose, .loopClose] = [.loopOpen, .loopClose] ++ .loopClose :: [.endOfProgram] ∧
      Balanced [.loopOpen, .loopClose]) ∧
    (normalise [.loopClose, .loopOpen] = [] ++ .loopClose :: [.loopOpen, .endOfProgram] ∧ Balanced []) :=
  ⟨⟨rfl, balanced_pair⟩, rfl, balanced_nil⟩

/-- V-LD-1. -/
theorem witness_UnclosedOpenReportsTheInnermost :
    normalise [.loopOpen] = [] ++ .loopOpen :: [.endOfProgram] ∧ NeverBelow (normalise [.loopOpen]) ∧
    Balanced [.endOfProgram] :=
  ⟨rfl, fun k => by rcases k with _ | _ | k <;> simp [normalise, bracketDepth, bracketWeight], balanced_E⟩

theorem witness_LoadBuildsTheRightJumpTable :
    load [.loopOpen, .loopClose] = .ok ([.loopOpen, .loopClose, .endOfProgram], [(0, 1), (1, 0)]) := rfl

/-- A run about to decode a carrier. -/
def starting (c : Carrier) : State := decoding c (DecoderWork.start Config.default c)

theorem witness_RunStartsTheEngineFromReset :
    (starting (row [0x08080800])).active = .decoder ∧ (starting (row [0x08080800])).cfg.wf = true ∧
    (starting (row [0x08080800])).decoder =
      DecoderWork.start (starting (row [0x08080800])).cfg (starting (row [0x08080800])).carrier ∧
    decode (starting (row [0x08080800])).cfg (starting (row [0x08080800])).carrier = .ok [.endOfProgram] ∧
    load [.endOfProgram] = .ok ([.endOfProgram], []) := ⟨rfl, by decide, rfl, rfl, rfl⟩

/-- A carrier that does not decode, and one that decodes to `]` (V-EC-6). -/
theorem witness_FirstFailingStageEndsTheRun :
    ((starting (row [0])).active = .decoder ∧ (starting (row [0])).cfg.wf = true ∧
      (starting (row [0])).decoder = DecoderWork.start (starting (row [0])).cfg (starting (row [0])).carrier) ∧
    decode Config.default (row [0]) = .error (.corruptStream .leadingContinuation 0 0) ∧
    decode Config.default (row [0xF800F800, 0x00080000]) = .ok [.loopClose, .endOfProgram] ∧
    load [.loopClose, .endOfProgram] = .error (.unmatchedBracket 0) := ⟨by decide, rfl, rfl, rfl⟩

theorem witness_DecodeStepIsReadOnly :
    (starting (row [0x08080800])).active = .decoder ∧ (next? (step (starting (row [0x08080800])))).isSome = true := by
  decide

theorem witness_IllFormedConfigurationIsRefused :
    (({ eng [.endOfProgram] [] 0 with cfg := bounded 0 } : State).active ≠ .host ∧ (bounded 0).wf = false) ∧
    ({ State.reset with pending := [.inject (bounded 0) [] none] } : State).active = .host ∧
    ({ State.reset with pending := [.run (bounded 0) none [] true []] } : State).active = .host := by decide

theorem witness_OperationsStartFromTheirStartValues :
    State.reset.active = .host ∧ Config.default.wf = true ∧ (row [9]).wf = true ∧
    ({ State.reset with pending := [.inject Config.default [.endOfProgram] (some (row [9]))] } : State).pending =
      .inject Config.default [.endOfProgram] (some (row [9])) :: [] ∧
    ({ State.reset with pending := [.run Config.default (some (row [9])) [] true []] } : State).pending =
      .run Config.default (some (row [9])) [] true [] :: [] := by decide

theorem witness_EndedEngineOnlyReturnsItsResult :
    (({ eng [.endOfProgram] [] 0 with status := .halted } : State).active = .engine ∧ Config.default.wf = true ∧
      Status.halted ≠ .running) ∧ State.reset.active = .host ∧ State.reset.pending = [] := by decide

/-- An engine as `eng` makes it fetches what stands at `ip`. -/
theorem eng_fetches {prog : List Token} {jt : JumpTable} {ip : Nat} {t : Token} (h : prog[ip]? = some t) :
    Fetches (eng prog jt ip) t :=
  ⟨rfl, by show Config.default.wf = true; decide, rfl, fun _ hl => (by cases hl), h⟩

/-- An instruction that completes, one that raises, and one that faults. -/
theorem witness_StepRunsTheFetchedInstruction :
    (Fetches (eng [.moveRight, .endOfProgram] [] 0) .moveRight ∧ (∀ s, ¬(Token.moveRight = .input ∧ SourceWaits s)) ∧
      (next? (exec .moveRight (eng [.moveRight, .endOfProgram] [] 0))).map State.status = some .running) ∧
    (Fetches (eng [.moveLeft, .endOfProgram] [] 0) .moveLeft ∧ (∀ s, ¬(Token.moveLeft = .input ∧ SourceWaits s)) ∧
      (next? (exec .moveLeft (eng [.moveLeft, .endOfProgram] [] 0))).map State.status =
        some (.faulted (.tapeUnderflow 0))) ∧
    (Fetches (eng [.loopOpen, .endOfProgram] [] 0) .loopOpen ∧ (∀ s, ¬(Token.loopOpen = .input ∧ SourceWaits s)) ∧
      exec .loopOpen (eng [.loopOpen, .endOfProgram] [] 0) = .fault .jumpTargetUndefined) :=
  ⟨⟨eng_fetches rfl, fun _ h => (by cases h.1), rfl⟩, ⟨eng_fetches rfl, fun _ h => (by cases h.1), rfl⟩,
    eng_fetches rfl, fun _ h => (by cases h.1), rfl⟩

theorem witness_PlacedWordIsRunNext :
    State.reset.cfg.wf = true ∧ BelowLimit State.reset ∧
    decodeTableWord 32 0xF800F800 = some (Token.toInstr .loopClose) ∧ decodeTableWord 32 0 = some .continuation :=
  ⟨by decide, fun _ hl => (by cases hl), by decide, by decide⟩

/-- V-EC-3: the limit 0. -/
theorem witness_StepLimitIsCheckedFirst :
    (let s := { eng [.increment, .endOfProgram] [] 0 with cfg := { Config.default with stepLimit := some 0 } }
     s.active = .engine ∧ s.cfg.wf = true ∧ s.status = .running ∧ s.cfg.stepLimit = some 0 ∧ 0 ≤ s.steps) := by decide

/-- An open source without bytes (V-IO-5). -/
def waiting (arr : List Arrival) : State :=
  { eng [.input, .output, .endOfProgram] [] 0 with closed := false, arrivals := arr }

theorem waiting_fetches (arr : List Arrival) : Fetches (waiting arr) .input :=
  ⟨rfl, by show Config.default.wf = true; decide, rfl, fun _ hl => (by cases hl), rfl⟩

theorem witness_InputHoldsUntilTheHostActs :
    (∀ arr, Fetches (waiting arr) .input ∧ SourceWaits (waiting arr)) ∧ (waiting []).arrivals = [] ∧
    (waiting [.byte 7, .close]).arrivals = .byte 7 :: [.close] ∧ (waiting [.close]).arrivals = .close :: [] :=
  ⟨fun arr => ⟨waiting_fetches arr, Nat.le_refl 0, rfl⟩, rfl, rfl, rfl⟩

/-- A schedule landed at once: a byte after the closing is not appended (R44). -/
theorem test_landed : (waiting [.byte 7, .close, .byte 8]).landed =
    { waiting [] with input := [7], closed := true } := by decide

/-- A step that does not hold, and a run of three steps: the first holds, the second reads the byte that landed, the third
outputs it. -/
theorem witness_ArrivalTimeDoesNotChangeTheRun :
    (let s := { clearLoop 1 3 with closed := false }
     s.active = .engine ∧ s.closed = false ∧ ¬(s.prog[s.ip]? = some .input ∧ SourceWaits s) ∧
     ∃ s', step s = .next s') ∧
    (waiting [.byte 7, .close]).active = .engine ∧
    ∃ t, Host.Core.run core 3 (waiting [.byte 7, .close]) = .next t ∧
      t.responses = (waiting [.byte 7, .close]).responses :=
  ⟨⟨rfl, rfl, fun h => (by cases h.1), _, rfl⟩, rfl, _, rfl, rfl⟩

/-- V-PTR-2 and V-PTR-5. -/
theorem witness_RaisingInstructionChangesOnlyStatus :
    ((eng [.moveLeft, .endOfProgram] [] 0).status = .running ∧
      (next? (exec .moveLeft (eng [.moveLeft, .endOfProgram] [] 0))).map State.status =
        some (.faulted (.tapeUnderflow 0))) ∧
    (next? (exec .moveRight { eng [.moveRight, .endOfProgram] [] 0 with cfg := bounded 1 })).map State.status =
      some (.faulted (.tapeOverflow 0 0)) := by decide

theorem witness_InstructionsWriteOnlyTheEnginesOwnState :
    (next? (exec .increment (eng [.increment, .endOfProgram] [] 0))).isSome = true ∧
    1 ≠ (eng [.increment, .endOfProgram] [] 0).dp := by decide

/-- One case per disjunct: on, a jump forward, a jump back, and a stay. -/
theorem witness_InstructionPointerAdvancesByOneOrJumps :
    ((clearLoop 1 3).status = .running ∧ ¬(Token.decrement = .input ∧ SourceWaits (clearLoop 1 3))) ∧
    (next? (exec .decrement (clearLoop 1 3))).map State.ip = some 2 ∧
    (next? (exec .loopOpen (clearLoop 0 0))).map State.ip = some 2 ∧
    (next? (exec .loopClose (clearLoop 2 1))).map State.ip = some 0 ∧
    (next? (exec .endOfProgram (clearLoop 3 0))).map State.ip = some 3 :=
  ⟨⟨rfl, fun h => by cases h.1⟩, by decide⟩

/-- A tape without an end, and the two sides of the end of a tape of three cells. -/
theorem witness_MoveRightMovesOneCell :
    (∀ n, State.reset.cfg.tapeCells = some n → State.reset.dp + 1 < n) ∧
    (∀ n, (bounded 3).tapeCells = some n → 1 + 1 < n) ∧ ((bounded 3).tapeCells = some 3 ∧ 3 ≤ 2 + 1) :=
  ⟨fun _ h => (by cases h), fun _ h => (by cases h; decide), rfl, by decide⟩

theorem witness_MoveLeftMovesOneCellOrUnderflows :
    0 < ({ State.reset with dp := 1 } : State).dp ∧
    (State.reset.dp = 0 ∧ State.reset.cfg.underflowPolicy = .fault) ∧
    ({ Config.default with underflowPolicy := .clamp } : Config).underflowPolicy = .clamp := by decide

/-- The last cell of a bounded tape exists, and every cell of an unbounded one. -/
theorem witness_CellExists :
    CellExists { State.reset with cfg := bounded 3, dp := 2 } ∧ CellExists { State.reset with dp := 1000 } :=
  ⟨fun _ h => (by cases h; decide), fun _ h => by cases h⟩

theorem witness_IncrementAddsOneModulo256 : CellExists { State.reset with cfg := bounded 3, dp := 2 } :=
  witness_CellExists.1

theorem witness_DecrementSubtractsOneModulo256 : CellExists { State.reset with cfg := bounded 3, dp := 2 } :=
  witness_CellExists.1

theorem witness_OutputAppendsTheCell : CellExists { State.reset with cfg := bounded 3, dp := 2 } := witness_CellExists.1

/-- A byte, an exhausted source under each policy, and a source that waits. -/
theorem witness_InputReadsOneByteOrFollowsThePolicy :
    (CellExists { State.reset with input := [7] } ∧ [(7 : Byte)][State.reset.inCursor]? = some 7) ∧
    (State.reset.input.length ≤ State.reset.inCursor ∧ State.reset.closed = true) ∧
    (State.reset.cfg.eofPolicy = .zero ∧ CellExists State.reset) ∧
    ({ Config.default with eofPolicy := .unchanged } : Config).eofPolicy = .unchanged ∧
    ({ Config.default with eofPolicy := .terminate } : Config).eofPolicy = .terminate ∧ SourceWaits (waiting []) :=
  ⟨⟨fun _ h => (by cases h), rfl⟩, by decide, ⟨rfl, fun _ h => by cases h⟩, rfl, rfl, Nat.le_refl 0, rfl⟩

theorem clearLoop_cellExists (ip : Nat) (v : Byte) : CellExists (clearLoop ip v) := fun _ h => by cases h

theorem witness_LoopOpenSkipsOnZero :
    CellExists (clearLoop 0 0) ∧
    (Memory.read (clearLoop 0 0).tape 0 = 0 ∧ JumpTable.target (clearLoop 0 0).jt 0 = some 2) ∧
    Memory.read (clearLoop 0 3).tape 0 ≠ 0 := ⟨clearLoop_cellExists 0 0, by decide, by decide⟩

theorem witness_LoopCloseRepeatsOnNonzero :
    CellExists (clearLoop 2 1) ∧
    (Memory.read (clearLoop 2 1).tape 0 ≠ 0 ∧ JumpTable.target (clearLoop 2 1).jt 2 = some 0) ∧
    Memory.read (clearLoop 2 0).tape 0 = 0 := ⟨clearLoop_cellExists 2 1, by decide, by decide⟩

theorem witness_InstructionsStopOutsideTheirDomain :
    ((bounded 3).tapeCells = some 3 ∧ 3 ≤ ({ State.reset with cfg := bounded 3, dp := 3, input := [7] } : State).dp ∧
      0 < ({ State.reset with cfg := bounded 3, dp := 3, input := [7] } : State).input.length) ∧
    (CellExists State.reset ∧ JumpTable.target State.reset.jt State.reset.ip = none ∧
      Memory.read State.reset.tape State.reset.dp = 0) ∧
    Memory.read ({ State.reset with tape := [(0, 1)] } : State).tape 0 ≠ 0 :=
  ⟨by decide, ⟨fun _ h => (by cases h), rfl, rfl⟩, by decide⟩

theorem clearLoop_fetches {ip : Nat} {v : Byte} {t : Token}
    (h : [Token.loopOpen, .decrement, .loopClose, .endOfProgram][ip]? = some t) : Fetches (clearLoop ip v) t :=
  ⟨rfl, by show Config.default.wf = true; decide, rfl, fun _ hl => (by cases hl), h⟩

theorem witness_LoopOnZeroIsSkippedInTwoSteps :
    Fetches (clearLoop 0 0) .loopOpen ∧ CellExists (clearLoop 0 0) ∧
    JumpTable.target (clearLoop 0 0).jt (clearLoop 0 0).ip = some 2 ∧ (clearLoop 0 0).prog[2]? = some .loopClose ∧
    (∀ l, (clearLoop 0 0).cfg.stepLimit = some l → (clearLoop 0 0).steps + 1 < l) ∧
    Memory.read (clearLoop 0 0).tape (clearLoop 0 0).dp = 0 :=
  ⟨clearLoop_fetches rfl, clearLoop_cellExists 0 0, rfl, rfl, fun _ h => (by cases h), rfl⟩

theorem witness_LoopOnNonzeroIsReentered :
    Fetches (clearLoop 2 2) .loopClose ∧ CellExists (clearLoop 2 2) ∧
    JumpTable.target (clearLoop 2 2).jt (clearLoop 2 2).ip = some 0 ∧ (clearLoop 2 2).prog[0]? = some .loopOpen ∧
    (∀ l, (clearLoop 2 2).cfg.stepLimit = some l → (clearLoop 2 2).steps + 1 < l) ∧
    Memory.read (clearLoop 2 2).tape (clearLoop 2 2).dp ≠ 0 :=
  ⟨clearLoop_fetches rfl, clearLoop_cellExists 2 2, rfl, rfl, fun _ h => (by cases h), by decide⟩

theorem witness_EmptyLoopOnNonzeroNeverEnds :
    Fetches (emptyLoop 0 1) .loopOpen ∧ CellExists (emptyLoop 0 1) ∧ (emptyLoop 0 1).cfg.stepLimit = none ∧
    (emptyLoop 0 1).prog[(emptyLoop 0 1).ip + 1]? = some .loopClose ∧
    JumpTable.target (emptyLoop 0 1).jt ((emptyLoop 0 1).ip + 1) = some (emptyLoop 0 1).ip ∧
    Memory.read (emptyLoop 0 1).tape (emptyLoop 0 1).dp ≠ 0 :=
  ⟨⟨rfl, by show Config.default.wf = true; decide, rfl, fun _ hl => (by cases hl), rfl⟩, fun _ h => (by cases h), rfl, rfl,
    rfl, by decide⟩

/-- The engine of the program `[E]` meets the invariant, with any limit. -/
theorem endEngine_inv (l : Option Nat) :
    Inv { eng [.endOfProgram] [] 0 with cfg := { Config.default with stepLimit := l } } where
  config := by show Config.default.wf = true; decide
  carrier := by show Carrier.wf ⟨0, 0, []⟩ = true; decide
  tape := by show Memory.wf []; decide
  engine := fun _ => {
    program := endsOnce_E
    jumps := {
      defined := fun i => by
        rcases i with _ | i <;> simp [eng, JumpTable.target, IsBracketAt]
      bidirectional := fun i j h => by cases h
      fromOpen := fun i j h => by cases h
      fromClose := fun i j h => by cases h
      inside := fun i j h => by cases h
      nested := fun i j k m h => by cases h
      beforeEnd := fun i j h => by cases h }
    ipInProgram := fun _ => Nat.zero_lt_one
    cellExists := fun n h => by cases h
    tapeBounded := fun n h => by cases h
    cursor := Nat.le_refl 0
    withinLimit := fun l _ => Nat.zero_le l }
  encoderStart := fun h => by cases h
  encoderIdle := fun _ => rfl
  decoderStart := fun h => by cases h
  decoderIdle := fun _ => rfl
  loaderStart := fun h => by cases h
  loaderIdle := fun _ => rfl

/-- The machine after reset with requests waiting meets the invariant. -/
theorem reset_inv (ops : List Operation) : Inv { State.reset with pending := ops } where
  config := by show Config.default.wf = true; decide
  carrier := by show Carrier.wf ⟨0, 0, []⟩ = true; decide
  tape := by show Memory.wf []; decide
  engine := fun h => by cases h
  encoderStart := fun h => by cases h
  encoderIdle := fun _ => rfl
  decoderStart := fun h => by cases h
  decoderIdle := fun _ => rfl
  loaderStart := fun h => by cases h
  loaderIdle := fun _ => rfl

theorem witness_EveryStepKeepsTheInvariant :
    Inv { eng [.endOfProgram] [] 0 with cfg := { Config.default with stepLimit := none } } ∧
    (next? (step { eng [.endOfProgram] [] 0 with cfg := { Config.default with stepLimit := none } })).isSome = true :=
  ⟨endEngine_inv none, by decide⟩

/-- Both refusals, from states that meet the invariant. -/
theorem witness_NoStepFaultsUnderTheInvariant :
    (Inv { State.reset with pending := [.run (bounded 0) none [] true []] } ∧
      step { State.reset with pending := [.run (bounded 0) none [] true []] } = .refused .illFormedConfig) ∧
    (Inv { State.reset with pending := [.inject Config.default [] (some ⟨1, 1, []⟩)] } ∧
      step { State.reset with pending := [.inject Config.default [] (some ⟨1, 1, []⟩)] } = .refused .malformedCarrier) :=
  ⟨⟨reset_inv _, rfl⟩, reset_inv _, rfl⟩

/-- The limit 0, where the bound is one step, and the limit 1. -/
theorem witness_StepLimitEndsEveryRun :
    (∀ l, Inv { eng [.endOfProgram] [] 0 with cfg := { Config.default with stepLimit := some l } }) ∧
    (let s := { eng [.endOfProgram] [] 0 with cfg := { Config.default with stepLimit := some 0 } }
     s.active = .engine ∧ s.status = .running ∧ s.closed = true ∧ s.cfg.stepLimit = some 0) :=
  ⟨fun l => endEngine_inv (some l), by decide⟩

end Sys2Proof.Tests
end

