-- ==== Sys2Proof/Proofs/Scope.lean ====
section
/-! PROOFS. The scope rules of 00_scope.md: arithmetic modulo 256 (R11), the pixel operations (R12), and the refusal of an
ill-formed configuration (R8). -/

namespace Sys2Proof

/-! ### Byte arithmetic (R11) -/

/-- Without a wrap the difference is in range already; the wrap adds one 256, which `mod` takes away. -/
theorem byte_sub_toNat_emod (a b : Byte) : ((a - b).toNat : Int) = ((a.toNat : Int) - b.toNat) % 256 := by
  have ha : a.toNat < 256 := a.isLt
  have hb : b.toNat < 256 := b.isLt
  have hsub : (a - b).toNat = (256 - b.toNat + a.toNat) % 256 := BitVec.toNat_sub a b
  omega

/-- The bit vector of an integer is its residue, and a residue is not negative. -/
theorem red_toNat (v : Int) : ((red v).toNat : Int) = v % 256 := by
  have hred : (red v).toNat = (v % 256).toNat := BitVec.toNat_ofInt v
  rw [hred, Int.toNat_of_nonneg (Int.emod_nonneg v (by decide))]

/-- Settles O1: addition is the library's own equation, the subtraction and `red` are the two lemmas above. -/
theorem arithmeticIsModulo256 : Obligations.ArithmeticIsModulo256 :=
  ⟨fun a b => ⟨BitVec.toNat_add a b, byte_sub_toNat_emod a b⟩, fun v => ⟨red_toNat v, (red v).isLt⟩⟩

/-! ### Pixel operations (R12) -/

/-- The delta to a pixel, added, gives that pixel: each channel cancels in the ring of bytes. -/
theorem px_add_sub_cancel (p d : Pixel) : p.add (d.sub p) = d := by
  simp only [Pixel.add, Pixel.sub, add_sub_cancel]

/-- Settles O2: the operations are channelwise by definition, and the three laws are the encoding's own. -/
theorem pixelOperationsActChannelwise : Obligations.PixelOperationsActChannelwise :=
  fun p d => ⟨rfl, rfl, px_add_sub_self p d, px_add_sub_cancel p d, px_sub_eq_zero p d⟩

end Sys2Proof

namespace Sys2Proof.Machine

/-! ### The configuration check (R8) -/

/-- Whichever agent is active, its step begins with the check of the configuration in place. -/
theorem step_active_illFormed {s : State} (ha : s.active ≠ .host) (hc : s.cfg.wf = false) :
    step s = .refused .illFormedConfig := by
  cases hact : s.active with
  | host => exact absurd hact ha
  | encoder | decoder | loader | engine => simp [step, cycle, hact, hc]

/-- The HOST's step starts the first operation requested. -/
theorem step_host_request {s : State} {op : Operation} {rest : List Operation} (ha : s.active = .host)
    (hp : s.pending = op :: rest) : step s = { s with pending := rest }.begin op := by
  simp [step, cycle, ha, State.hostStep, hp]

/-- An inject checks the configuration it brings before the carrier. -/
theorem begin_inject_illFormed {cfg : Config} (hc : cfg.wf = false) (s : State) (ts : List Token) (c : Option Carrier) :
    s.begin (.inject cfg ts c) = .refused .illFormedConfig := by
  simp [State.begin, hc]

/-- A run checks the configuration it brings before the carrier. -/
theorem begin_run_illFormed {cfg : Config} (hc : cfg.wf = false) (s : State) (c : Option Carrier) (inp : List Byte)
    (cl : Bool) (arr : List Arrival) : s.begin (.run cfg c inp cl arr) = .refused .illFormedConfig := by
  simp [State.begin, hc]

/-- Settles O31: an active agent's step checks the configuration in place, a request's start the one it brings. -/
theorem illFormedConfigurationIsRefused : Obligations.IllFormedConfigurationIsRefused :=
  fun _ => ⟨step_active_illFormed,
    fun _ ts c _ ha hp hc => (step_host_request ha hp).trans (begin_inject_illFormed hc _ ts c),
    fun _ c inp cl arr _ ha hp hc => (step_host_request ha hp).trans (begin_run_illFormed hc _ c inp cl arr)⟩

end Sys2Proof.Machine
end

