-- ==== Sys2Proof/Proofs/StateRules.lean ====
section
/-! PROOFS. The state rules of 10_state.md: the engine's start values (R47, R281), what a requested operation starts with
(R30 to R36), and the frame of the nine instructions (R43). -/

namespace Sys2Proof.Machine

/-! ### The frame of the instructions (R43, R62, R74, R75) -/

/-- `s'` differs from `s` at most in the registers and the tape that instructions may write, and in no cell but the
current one. -/
def WithinFrame (s s' : State) : Prop :=
  (∃ ip dp tape cur out st, s' = { s with ip := ip, dp := dp, tape := tape, inCursor := cur, out := out, status := st }) ∧
  ∀ a, a ≠ s.dp → Memory.read s'.tape a = Memory.read s.tape a

/-- The engine's registers may take any values, as long as the tape stays. -/
theorem withinFrame_registers (s : State) (ip dp cur : Nat) (out : List Byte) (st : Status) :
    WithinFrame s { s with ip := ip, dp := dp, inCursor := cur, out := out, status := st } :=
  ⟨⟨ip, dp, s.tape, cur, out, st, rfl⟩, fun _ _ => rfl⟩

/-- The current cell may take any value, while `ip` and `in_cursor` go on. -/
theorem withinFrame_writeCell (s : State) (v : Byte) (ip cur : Nat) :
    WithinFrame s { s.writeCell v with ip := ip, inCursor := cur } :=
  ⟨⟨ip, s.dp, Memory.write s.tape s.dp v, cur, s.out, s.status, rfl⟩, fun _ ha => Memory.read_write_ne s.tape v ha⟩

/-- Every case of an instruction either leaves the tape or writes the current cell. -/
theorem exec_withinFrame {s s' : State} {t : Token} (h : exec t.toInstr s = .next s') : WithinFrame s s' := by
  rcases exec_token_cases h with hMoveRight | hMoveLeft | hArith | hOutput | hInput | hLoopOpen | hLoopClose | hEnd
  · obtain ⟨-, ⟨-, rfl⟩ | ⟨-, rfl⟩⟩ := hMoveRight <;> exact withinFrame_registers ..
  · obtain ⟨-, ⟨-, -, rfl⟩ | ⟨-, -, rfl⟩ | ⟨-, rfl⟩⟩ := hMoveLeft <;> exact withinFrame_registers ..
  · obtain ⟨-, -, v, rfl⟩ := hArith
    exact withinFrame_writeCell s v ..
  · obtain ⟨-, -, rfl⟩ := hOutput
    exact withinFrame_registers ..
  · obtain ⟨-, ⟨-, b, -, rfl⟩ | ⟨-, ⟨-, rfl⟩ | rfl | rfl⟩ | ⟨-, rfl⟩⟩ := hInput
    · exact withinFrame_writeCell s b ..
    · exact withinFrame_writeCell s 0 ..
    all_goals exact withinFrame_registers ..
  · obtain ⟨-, -, ⟨-, j, -, rfl⟩ | ⟨-, rfl⟩⟩ := hLoopOpen <;> exact withinFrame_registers ..
  · obtain ⟨-, -, ⟨-, j, -, rfl⟩ | ⟨-, rfl⟩⟩ := hLoopClose <;> exact withinFrame_registers ..
  · obtain ⟨-, rfl⟩ := hEnd
    exact withinFrame_registers ..

/-- Settles O40: the frame is what every instruction keeps. -/
theorem instructionsWriteOnlyTheEnginesOwnState : Obligations.InstructionsWriteOnlyTheEnginesOwnState :=
  fun _ _ _ h => exec_withinFrame h

/-! ### The start of the engine (R47, R180, R284) -/

/-- The decode step of a carrier that decodes: the token sequence goes to the LOADER. -/
theorem step_decoder_ok {s : State} {toks : List Token} (ha : s.active = .decoder) (hc : s.cfg.wf = true)
    (hs : s.decoder = DecoderWork.start s.cfg s.carrier) (hd : decode s.cfg s.carrier = .ok toks) :
    step s = .next { s with decoder := DecoderWork.idle, active := .loader, loader := LoaderWork.start toks } := by
  rw [step_decoder ha hc, runDecoder, hs, decodeFrom_start_ok hd, State.afterPixel]

/-- The load step of a token sequence that loads: the ENGINE is reset and starts. -/
theorem step_loader_ok {s : State} {toks prog : List Token} {jt : JumpTable} (ha : s.active = .loader)
    (hc : s.cfg.wf = true) (hs : s.loader = LoaderWork.start toks) (hl : load toks = .ok (prog, jt)) :
    step s = .next { s.resetEngine prog jt with loader := LoaderWork.idle, active := .engine } := by
  have hfrom : loadFrom s.loader = .ok (prog, jt) := by rw [hs]; exact hl
  rw [step_loader ha hc, runLoader, hfrom]

/-- Settles O28: the decode step, then the load step. -/
theorem runStartsTheEngineFromReset : Obligations.RunStartsTheEngineFromReset :=
  fun _ _ _ _ ha hc hs hd hl => ⟨_, step_decoder_ok ha hc hs hd, step_loader_ok rfl hc rfl hl⟩

/-! ### The start of an operation (R30, R34 to R36, R281) -/

/-- An inject with a well-formed configuration and carrier starts the ENCODER. -/
theorem begin_inject_wf {cfg : Config} {c : Carrier} (hcfg : cfg.wf = true) (hc : c.wf = true) (s : State)
    (ts : List Token) : s.begin (.inject cfg ts (some c)) =
      .next { s with cfg := cfg, carrier := c, active := .encoder, encoder := EncoderWork.start cfg c ts } := by
  simp [State.begin, hcfg, hc]

/-- A run with a well-formed configuration and carrier clears the engine and starts the DECODER. -/
theorem begin_run_wf {cfg : Config} {c : Carrier} (hcfg : cfg.wf = true) (hc : c.wf = true) (s : State)
    (inp : List Byte) (cl : Bool) (arr : List Arrival) : s.begin (.run cfg (some c) inp cl arr) =
      .next { s.resetEngine [] [] with
        cfg := cfg, carrier := c, active := .decoder, decoder := DecoderWork.start cfg c,
        input := inp, closed := cl, arrivals := arr } := by
  simp [State.begin, hcfg, hc]

/-- Settles O32: the request leaves the list, and its start values are those of the working state's `start`. -/
theorem operationsStartFromTheirStartValues : Obligations.OperationsStartFromTheirStartValues :=
  fun _ _ _ _ ha hcfg hc =>
    ⟨fun ts hp => (step_host_request ha hp).trans (begin_inject_wf hcfg hc _ ts),
     fun inp cl arr hp => (step_host_request ha hp).trans (begin_run_wf hcfg hc _ inp cl arr)⟩

/-! ### Reset (R47, R281) -/

/-- Settles O56: each register by the definition of reset, each cell because the empty tape reads 0. -/
theorem resetStateOfTheEngine : Obligations.ResetStateOfTheEngine :=
  ⟨rfl, rfl, Memory.read_nil, rfl, rfl, rfl, rfl⟩

end Sys2Proof.Machine
end

