-- ==== Sys2Proof/Proofs/MemoryRules.lean ====
section
/-! PROOFS. The memory rules of 20_memory.md: the row-major index of the carrier (R60), and where an instruction stops
outside the tape or the jump table (R62, R230, R231). -/

namespace Sys2Proof

/-! ### The row-major index (R60) -/

/-- The row comes before the end of the grid, and the column before the end of the row. -/
theorem Carrier.linear_lt {c : Carrier} {x y : Nat} (hx : x < c.w) (hy : y < c.h) : c.linear x y < c.w * c.h :=
  calc y * c.w + x < y * c.w + c.w := Nat.add_lt_add_left hx _
    _ = c.w * (y + 1) := by ring
    _ ≤ c.w * c.h := Nat.mul_le_mul_left _ hy

/-- The column is read back as the remainder by the width. -/
theorem Carrier.linear_mod {c : Carrier} {x : Nat} (hx : x < c.w) (y : Nat) : c.linear x y % c.w = x :=
  Nat.mul_add_mod_of_lt hx

/-- The row is read back as the quotient by the width. -/
theorem Carrier.linear_div {c : Carrier} {x : Nat} (hx : x < c.w) (y : Nat) : c.linear x y / c.w = y := by
  rw [Carrier.linear, Nat.mul_comm, Nat.mul_add_div (Nat.zero_lt_of_lt hx), Nat.div_eq_of_lt hx, Nat.add_zero]

/-- Equal indices have equal remainders and quotients. -/
theorem Carrier.linear_injective {c : Carrier} {x y x' y' : Nat} (hx : x < c.w) (hx' : x' < c.w)
    (h : c.linear x y = c.linear x' y') : x = x' ∧ y = y' :=
  ⟨by rw [← Carrier.linear_mod hx y, h, Carrier.linear_mod hx' y'],
    by rw [← Carrier.linear_div hx y, h, Carrier.linear_div hx' y']⟩

/-- Settles O3: the formula is the definition; the bound and the two inverses are the lemmas above. -/
theorem rowMajorIndexIsInjective : Obligations.RowMajorIndexIsInjective :=
  fun _ _ _ _ _ hx hy hx' _ => ⟨rfl, Carrier.linear_lt hx hy, Carrier.linear_injective hx hx'⟩

end Sys2Proof

namespace Sys2Proof.Machine

/-! ### The end of a bounded tape (R62) -/

/-- A bounded tape has no cell from its length on. -/
theorem cellInRange_false {s : State} {n : Nat} (hn : s.cfg.tapeCells = some n) (hd : n ≤ s.dp) :
    s.cellInRange = false := by
  simp [State.cellInRange, hn, hd]

/-- A conditional jump tests the current cell, so it stops where there is none. -/
theorem branch_outside {s : State} (h : s.cellInRange = false) (f : Byte → Bool) :
    s.branchIf f = .fault .cellOutsideTape :=
  (branch_eq s f).trans (onCell_false h)

/-- An unread input item is what a poll answers. -/
theorem inPoll_byte {s : State} (h : s.inCursor < s.input.length) : s.inPoll = .byte s.input[s.inCursor] := by
  simp [State.inPoll, h]

/-- An Input that has a byte to store needs the current cell, so it stops where there is none. -/
theorem exec_input_outside {s : State} (hc : s.cellInRange = false) (hi : s.inCursor < s.input.length) :
    exec .input s = .fault .cellOutsideTape := by
  rw [exec_input, inPoll_byte hi]
  exact onCell_false hc

/-! ### A bracket without a partner (R230, R231) -/

/-- The jump reads `JT[ip]`, so it stops where the table is undefined. -/
theorem jumpToPartner_undefined {s : State} (h : JumpTable.target s.jt s.ip = none) :
    s.jumpToPartner = .fault .jumpTargetUndefined := by
  simp [State.jumpToPartner, h]

/-- On a cell that exists, a conditional jump whose condition is met is the jump to the partner. -/
theorem branch_taken {s : State} {f : Byte → Bool} (hc : s.cellInRange = true) (hf : f s.cell = true) :
    s.branchIf f = s.jumpToPartner := by
  rw [branch_eq, onCell_true hc, if_pos hf]

/-- Settles O51: each instruction named works on the current cell, and a taken jump needs a partner. -/
theorem instructionsStopOutsideTheirDomain : Obligations.InstructionsStopOutsideTheirDomain := by
  intro s
  constructor
  · intro n hn hd
    have hc : s.cellInRange = false := cellInRange_false hn hd
    exact ⟨(exec_increment s).trans (onCell_false hc), (exec_decrement s).trans (onCell_false hc),
      (exec_output s).trans (onCell_false hc), (exec_loopOpen s).trans (branch_outside hc _),
      (exec_loopClose s).trans (branch_outside hc _), exec_input_outside hc⟩
  · intro hcell hjt
    have hc : s.cellInRange = true := cellInRange_of hcell
    have hjump : s.jumpToPartner = .fault .jumpTargetUndefined := jumpToPartner_undefined hjt
    constructor
    · intro (hzero : s.cell = 0)
      rw [exec_loopOpen, branch_taken hc (by simpa [cellIsZero] using hzero), hjump]
    · intro (hnonzero : s.cell ≠ 0)
      rw [exec_loopClose, branch_taken hc (by simpa [cellIsZero] using hnonzero), hjump]

end Sys2Proof.Machine
end

