-- ==== Sys2Proof/Proofs/Encoding.lean ====
section
/-! PROOFS. The encoding rules of 30_encoding.md: decode and encode under a well-formed delta table (R97, R98), the
token codes (R92), the check of a delta table (R94) and the opcode map under DT0 (R102). -/

namespace Sys2Proof

/-! ### The pixel delta (R95, R98) -/

/-- The zero delta is the continuation marker, under every table. -/
theorem decodeDelta_zero (dt : DeltaTable) : decodeDelta dt Pixel.zero = .ok .continuation := by simp [decodeDelta]

/-- A nonzero delta that no token has is refused. -/
theorem decodeDelta_unknown {dt : DeltaTable} {d : Pixel} (hd : d ≠ Pixel.zero) (hv : ∀ t, d ≠ dt.vectorFor t) :
    decodeDelta dt d = .error (.unknownDelta d) := by
  have hnone : dt.instructionFor d = none := instructionFor_none.2 fun t => (hv t).symm
  simp [decodeDelta, hd, hnone]

/-- The encoder gives a token's instruction the token's vector. -/
theorem encodeDelta_toInstr (dt : DeltaTable) (t : Token) : encodeDelta dt t.toInstr = dt.vectorFor t := by
  simp [encodeDelta, token?_toInstr]

/-- The encoder gives the continuation marker the zero delta. -/
theorem encodeDelta_continuation (dt : DeltaTable) : encodeDelta dt .continuation = Pixel.zero := rfl

/-- A row of the opcode table is a token's instruction or the continuation marker. -/
theorem Instr.eq_toInstr_or_continuation (i : Instr) : (∃ t : Token, i = t.toInstr) ∨ i = .continuation := by
  cases ht : i.token? with
  | some t => exact .inl ⟨t, (toInstr_token? ht).symm⟩
  | none => exact .inr (token?_none.1 ht)

/-- What the encoder writes is read back. -/
theorem decodeDelta_encodeDelta {dt : DeltaTable} (h : dt.wf = true) (i : Instr) :
    decodeDelta dt (encodeDelta dt i) = .ok i := by
  obtain ⟨t, rfl⟩ | rfl := i.eq_toInstr_or_continuation
  · rw [encodeDelta_toInstr, decodeDelta_vectorFor h]
  · rw [encodeDelta_continuation, decodeDelta_zero]

/-- What is read as an instruction is what the encoder writes for it. The table need not be well formed: the decoder
answers only a token that has the vector. -/
theorem encodeDelta_of_decodeDelta {dt : DeltaTable} {d : Pixel} {i : Instr} (h : decodeDelta dt d = .ok i) :
    encodeDelta dt i = d := by
  by_cases hd : d = Pixel.zero
  · subst hd
    obtain rfl : Instr.continuation = i := Except.ok.inj ((decodeDelta_zero dt).symm.trans h)
    exact encodeDelta_continuation dt
  · cases hf : dt.instructionFor d with
    | none => simp [decodeDelta, hd, hf] at h
    | some t =>
      obtain rfl : t.toInstr = i := by simpa [decodeDelta, hd, hf] using h
      rw [encodeDelta_toInstr, instructionFor_some hf]

/-! ### The packed word (R97) -/

/-- What the encoder packs is read back. -/
theorem decodeWord_encodeWord {dt : DeltaTable} (h : dt.wf = true) (i : Instr) :
    decodeWord dt (encodeWord dt i) = .ok i := by
  rw [decodeWord, encodeWord, unpack_pack, decodeDelta_encodeDelta h]

/-- A word read as an instruction is the word the encoder packs for it. -/
theorem encodeWord_of_decodeWord {dt : DeltaTable} {w : BitVec 32} {i : Instr} (h : decodeWord dt w = .ok i) :
    encodeWord dt i = w := by
  rw [encodeWord, encodeDelta_of_decodeDelta h, pack_unpack]

/-- Settles O7: both directions for the delta, carried to the word by packing and unpacking. -/
theorem decodeInvertsEncode : Obligations.DecodeInvertsEncode :=
  fun _ h => ⟨fun i => ⟨decodeDelta_encodeDelta h i, decodeWord_encodeWord h i⟩,
    fun _ _ => encodeDelta_of_decodeDelta, fun _ _ => encodeWord_of_decodeWord⟩

/-- Settles O6: the zero delta, a vector of the table, and any other delta. -/
theorem deltaDecodesByExactMatch : Obligations.DeltaDecodesByExactMatch := by
  intro dt d h
  refine ⟨?_, ?_, decodeDelta_unknown⟩
  · rintro rfl
    exact decodeDelta_zero dt
  · rintro t rfl
    exact ⟨decodeDelta_vectorFor h t, fun _ hu => (vectorFor_injective h hu).symm⟩

/-! ### The token codes (R92) -/

/-- The code of a token is its place in the alphabet. -/
theorem Token.all_getElem?_code (t : Token) : Token.all[t.code.toNat]? = some t := by cases t <;> rfl

/-- A token's code is read back as the token. -/
theorem Token.ofCode_code (t : Token) : Token.ofCode t.code = .ok t := by
  simp [Token.ofCode, Token.all_getElem?_code]

/-- A code past the alphabet is refused by name. -/
theorem Token.ofCode_reserved {c : BitVec 4} (h : 9 ≤ c.toNat) : Token.ofCode c = .error (.reservedTokenCode c) := by
  have hnone : Token.all[c.toNat]? = none := List.getElem?_eq_none h
  simp [Token.ofCode, hnone]

/-- Settles O4: the two columns are read off the alphabet, and the codes are the places in it. -/
theorem tokenCodesRoundTrip : Obligations.TokenCodesRoundTrip :=
  ⟨rfl, rfl, Token.ofCode_code, fun _ => Token.ofCode_reserved⟩

/-! ### The check of a delta table (R94) -/

/-- Condition 1: the alphabet lists every token, so the check reaches each vector. -/
theorem DeltaTable.noZero_iff (dt : DeltaTable) : dt.noZero = true ↔ ∀ t, dt.vectorFor t ≠ Pixel.zero := by
  simp [DeltaTable.noZero, Token.mem_all]

/-- Condition 2: likewise for each pair of vectors. -/
theorem DeltaTable.distinct_iff (dt : DeltaTable) :
    dt.distinct = true ↔ ∀ t u, t ≠ u → dt.vectorFor t ≠ dt.vectorFor u := by
  simp only [DeltaTable.distinct, List.all_eq_true, decide_eq_true_eq, Token.mem_all, forall_const]

/-- Settles O5: the check is the conjunction of the two conditions. -/
theorem deltaTableCheckSaysR94 : Obligations.DeltaTableCheckSaysR94 := by
  intro dt
  rw [DeltaTable.wf, Bool.and_eq_true]
  exact and_congr dt.noZero_iff dt.distinct_iff

/-! ### The opcode map under DT0 (R96, R102) -/

/-- A 32-bit word that the encoder packs under DT0 is that row's word in the opcode table. -/
theorem decodeTableWord_of_encodeWord {i : Instr} {w : Nat} (h : (encodeWord DeltaTable.dt0 i).toNat = w) :
    decodeTableWord 32 w = some i := by
  subst h
  have hdt0 : DeltaTable.dt0.wf = true := by decide
  have hword (v : BitVec 32) : BitVec.ofNat 32 (v.toNat % 2 ^ 32) = v := by
    rw [Nat.mod_eq_of_lt v.isLt, BitVec.ofNat_toNat, BitVec.setWidth_eq]
  rw [decodeTableWord, if_pos le_rfl, hword, decodeWord_encodeWord hdt0]

/-- Settles O8: each word of the map is the one the encoder packs, so it is read back. -/
theorem opcodeMapDecodes : Obligations.OpcodeMapDecodes :=
  ⟨⟨decodeTableWord_of_encodeWord rfl, rfl⟩,
    ⟨decodeTableWord_of_encodeWord rfl, rfl⟩,
    ⟨decodeTableWord_of_encodeWord rfl, rfl⟩,
    ⟨decodeTableWord_of_encodeWord rfl, rfl⟩,
    ⟨decodeTableWord_of_encodeWord rfl, rfl⟩,
    ⟨decodeTableWord_of_encodeWord rfl, rfl⟩,
    ⟨decodeTableWord_of_encodeWord rfl, rfl⟩,
    ⟨decodeTableWord_of_encodeWord rfl, rfl⟩,
    ⟨decodeTableWord_of_encodeWord rfl, rfl⟩,
    decodeTableWord_of_encodeWord rfl⟩

end Sys2Proof
end

