-- ==== Sys2Proof/Proofs/Encode.lean ====
section
/-! PROOFS. The encoder's half of 40_codec.md: stacking and expansion (R123, R142), the two checks (R124, R125), the
pixels that Encode writes (R128, R131), and the ENCODER's transaction (R120, R129). -/

namespace Sys2Proof.Machine

/-! ### Stacking (R123, R142) -/

/-- Expansion undoes stacking: each token that joins the run list is one more token of its expansion. -/
theorem expand_stack (ts : List Token) : expand (stack ts) = ts := by
  induction ts using List.reverseRecOn with
  | nil => rfl
  | append_singleton ts t ih => rw [stack_snoc, expand_stackPush, ih]

/-- A run list expands to as many tokens as its counts say. -/
theorem length_expand (runs : List EncodedRun) : (expand runs).length = (runs.map EncodedRun.count).sum := by
  simp [expand, List.length_flatMap]

/-- Settles O9: the sum of the counts is the length of the expansion. -/
theorem expandInvertsStack : Obligations.ExpandInvertsStack :=
  fun ts => ⟨expand_stack ts, by rw [← length_expand, expand_stack]⟩

/-- Two neighbouring runs do not hold the same stackable instruction. -/
def SeparateRuns (r r' : EncodedRun) : Prop := r.token = r'.token → r.token.stackable = false

/-- Only stackable instructions are repeated in a run, and no two neighbouring runs could be one. -/
def MaximalRuns (runs : List EncodedRun) : Prop :=
  (∀ r ∈ runs, r.token.stackable = false → r.count = 1) ∧ runs.IsChain SeparateRuns

/-- A last run may take any count that its instruction allows: its neighbour looks at the token alone. -/
theorem MaximalRuns.recount {init : List EncodedRun} {t : Token} {c c' : Nat} (h : MaximalRuns (init ++ [⟨t, c⟩]))
    (ht : t.stackable = true) : MaximalRuns (init ++ [⟨t, c'⟩]) := by
  obtain ⟨hcount, hchain⟩ := h
  rw [List.isChain_append] at hchain
  obtain ⟨hinit, -, hlast⟩ := hchain
  constructor
  · intro r hr hs
    rcases List.mem_append.1 hr with hr | hr
    · exact hcount r (List.mem_append_left _ hr) hs
    · obtain rfl := List.mem_singleton.1 hr
      simp [ht] at hs
  · rw [List.isChain_append]
    refine ⟨hinit, List.isChain_singleton _, fun r hr r' hr' => ?_⟩
    obtain rfl : ⟨t, c'⟩ = r' := by simpa using hr'
    exact hlast r hr ⟨t, c⟩ rfl

/-- A new run joins at the end when the last run does not hold the same stackable instruction. -/
theorem MaximalRuns.concat {runs : List EncodedRun} {t : Token} (h : MaximalRuns runs)
    (hlast : ∀ init r, runs = init ++ [r] → r.token = t → t.stackable = false) : MaximalRuns (runs ++ [⟨t, 1⟩]) := by
  obtain ⟨hcount, hchain⟩ := h
  constructor
  · intro r hr
    rcases List.mem_append.1 hr with hr | hr
    · exact hcount r hr
    · obtain rfl := List.mem_singleton.1 hr
      exact fun _ => rfl
  · rw [List.isChain_append]
    refine ⟨hchain, List.isChain_singleton _, fun r hr r' hr' htok => ?_⟩
    obtain rfl : ⟨t, 1⟩ = r' := by simpa using hr'
    obtain ⟨init, rfl⟩ := List.getLast?_eq_some_iff.1 hr
    rw [htok]
    exact hlast init r rfl htok

/-- Stacking keeps the runs maximal, token by token. -/
theorem maximalRuns_stack (ts : List Token) : MaximalRuns (stack ts) := by
  induction ts using List.reverseRecOn with
  | nil => exact ⟨by simp [stack], List.isChain_nil⟩
  | append_singleton ts t ih =>
    rw [stack_snoc]
    rcases stackPush_cases (stack ts) t with ⟨init, c, hruns, hstackable, hpush⟩ | ⟨hlast, hpush⟩ <;> rw [hpush]
    · exact (hruns ▸ ih).recount hstackable
    · exact ih.concat hlast

/-- Settles O10: the two halves of maximality, with the count of at least 1. -/
theorem stackRunsAreMaximal : Obligations.StackRunsAreMaximal := by
  intro ts
  obtain ⟨hcount, hchain⟩ := maximalRuns_stack ts
  refine ⟨fun r hr => ⟨stack_counts ts r hr, hcount r hr⟩, fun i r r' hr hr' => ?_⟩
  obtain ⟨_, rfl⟩ := List.getElem?_eq_some_iff.1 hr
  obtain ⟨hi, rfl⟩ := List.getElem?_eq_some_iff.1 hr'
  exact List.isChain_iff_getElem.1 hchain i hi

/-! ### The two checks (R124, R125) -/

/-- Validity is checked first, and its answer is the position found. -/
theorem encode_invalid {ts : List Token} {i : Nat} (h : invalidTokenIndex ts = some i) (cfg : Config) (c : Carrier) :
    encode cfg c ts = .error (.invalidTokenStream i) := by
  rw [encode_eq, h]

/-- A valid sequence is too long for the carrier. -/
theorem encode_insufficient {cfg : Config} {c : Carrier} {ts : List Token} (h : EndsOnce ts)
    (hlt : availablePixels cfg c < ts.length) :
    encode cfg c ts = .error (.insufficientCapacity ts.length (availablePixels cfg c)) := by
  rw [encode_eq, invalid_none.2 h]
  exact if_pos hlt

/-- A valid sequence that fits is encoded. -/
theorem encode_fits {cfg : Config} {c : Carrier} {ts : List Token} (h : EndsOnce ts)
    (hle : ts.length ≤ availablePixels cfg c) : ∃ c', encode cfg c ts = .ok c' := by
  rw [encode_eq, invalid_none.2 h]
  exact ⟨_, if_neg (Nat.not_lt.2 hle)⟩

/-- Settles O11: a valid sequence meets only the capacity check. -/
theorem encodeChecksTheTokens : Obligations.EncodeChecksTheTokens := by
  intro cfg c ts
  refine ⟨fun h i he => ?_, fun i hi htok hfirst => encode_invalid (invalid_early hi htok hfirst) cfg c,
    fun h => encode_invalid (invalid_absent h) cfg c⟩
  rcases Nat.lt_or_ge (availablePixels cfg c) ts.length with hlt | hle
  · rw [encode_insufficient h hlt] at he
    cases he
  · obtain ⟨c', hok⟩ := encode_fits h hle
    rw [hok] at he
    cases he

/-- A valid sequence is not empty. -/
theorem EndsOnce.length_pos {ts : List Token} (h : EndsOnce ts) : 0 < ts.length := by
  obtain ⟨body, rfl, -⟩ := h
  simp

/-- At least one pixel is available exactly when the origin leaves that many, so the saturated `avail` of R125 does not
matter to a sequence that is not empty. -/
theorem le_availablePixels_iff {cfg : Config} {c : Carrier} {n : Nat} (hn : 0 < n) :
    n ≤ availablePixels cfg c ↔ cfg.origin + n ≤ c.w * c.h := by
  unfold availablePixels
  split_ifs <;> omega

/-- Settles O12: the capacity check is the comparison of `O + n` with `W * H`. -/
theorem encodeChecksCapacity : Obligations.EncodeChecksCapacity := by
  intro cfg c ts h
  have hiff := le_availablePixels_iff (cfg := cfg) (c := c) h.length_pos
  constructor
  · intro hlt
    exact encode_insufficient h (Nat.not_le.1 (mt hiff.1 (Nat.not_le.2 hlt)))
  · intro hle
    exact encode_fits h (hiff.2 hle)

/-! ### The pixels Encode writes (R128, R131) -/

section EncodedCarrier
variable {cfg : Config} {c c' : Carrier} {ts : List Token} (h : encode cfg c ts = .ok c')
include h

/-- The region written lies in the grid. -/
theorem encode_region_le : cfg.origin + ts.length ≤ c.w * c.h := by
  obtain ⟨hends, hle, -⟩ := encode_ok h
  exact (le_availablePixels_iff hends.length_pos).1 hle

/-- Encode keeps the grid. -/
theorem encode_grid : c'.w = c.w ∧ c'.h = c.h ∧ c'.pix.length = c.pix.length := by
  obtain ⟨-, -, rfl⟩ := encode_ok h
  exact ⟨rfl, rfl, writeAll_length ..⟩

/-- Encode keeps every pixel outside its region. -/
theorem encode_pixel_outside {i : Nat} (hi : i < cfg.origin ∨ cfg.origin + ts.length ≤ i) : c'.pix[i]? = c.pix[i]? := by
  obtain ⟨-, -, rfl⟩ := encode_ok h
  rw [writeAll_get, emit_length, if_neg (by omega)]

/-- The pixel at offset `k` is in closed form. -/
theorem encode_pixel (hc : c.wf = true) {k : Nat} (hk : k < ts.length) :
    c'.pix[cfg.origin + k]? = some (closedForm cfg.deltaTable (startPixel cfg c) ts (k + 1)) := by
  have hregion := encode_region_le h
  have hlen : c.pix.length = c.w * c.h := of_decide_eq_true hc
  obtain ⟨-, -, rfl⟩ := encode_ok h
  rw [writeAll_get, emit_length, if_pos (by omega), Nat.add_sub_cancel_left, emit_get _ _ _ _ hk]

/-- The base pixel stands before the region, so Encode keeps it. -/
theorem encode_startPixel : startPixel cfg c' = startPixel cfg c :=
  startPixel_congr fun h0 => encode_pixel_outside h (.inl (Nat.sub_one_lt h0))

/-- The pixel before offset `k` is the closed form one offset earlier. -/
theorem encode_pixelBefore (hc : c.wf = true) {k : Nat} (hk : k < ts.length) :
    pixelBefore cfg c' k = some (closedForm cfg.deltaTable (startPixel cfg c) ts k) := by
  cases k with
  | zero => exact congrArg some (encode_startPixel h)
  | succ j => exact encode_pixel h hc (Nat.lt_of_succ_lt hk)

end EncodedCarrier

/-- From one offset to the next the closed form moves by the token's vector at the start of a run, and stays within it. -/
theorem closedForm_delta (dt : DeltaTable) (base : Pixel) {ts : List Token} {k : Nat} {t : Token}
    (h : ts[k]? = some t) : (closedForm dt base ts (k + 1)).sub (closedForm dt base ts k) =
      if beginsRun ts k then dt.vectorFor t else Pixel.zero := by
  rw [closed_succ dt base ts k h]
  split_ifs
  · exact px_add_sub_self ..
  · exact px_sub_self _

/-- Settles O13: the region is the stretch of writes that `encode_ok` gives. -/
theorem encodeWritesOnlyItsRegion : Obligations.EncodeWritesOnlyItsRegion := by
  intro cfg c c' ts h
  obtain ⟨hw, hh, hlen⟩ := encode_grid h
  exact ⟨encode_region_le h, hw, hh, hlen, fun hc _ hk => encode_pixel h hc hk, fun _ hi => encode_pixel_outside h hi⟩

/-- Settles O14: the pixel at `k` and the one before it are neighbours in the closed form. -/
theorem encodedPixelsHaveTheClosedForm : Obligations.EncodedPixelsHaveTheClosedForm := by
  intro cfg c c' ts hc h k t ht
  have hk : k < ts.length := (List.getElem?_eq_some_iff.1 ht).1
  exact ⟨_, _, encode_pixel h hc hk, encode_pixelBefore h hc hk, closedForm_delta _ _ ht, rfl⟩

/-! ### The ENCODER's transaction (R120, R129) -/

/-- The ENCODER's step. -/
theorem step_encoder {s : State} (ha : s.active = .encoder) (hc : s.cfg.wf = true) : step s = .next (runEncoder s) := by
  simp [step, cycle, ha, hc]

/-- Ending an operation leaves the working states that are idle already. -/
theorem finish_of_idle {s : State} (hd : s.decoder = DecoderWork.idle) (hl : s.loader = LoaderWork.idle) (r : Response) :
    s.finish r = { s with active := .host, encoder := EncoderWork.idle, responses := s.responses ++ [r] } := by
  rw [State.finish, ← hd, ← hl]

/-- Settles O15: the transaction is Encode, its carrier put in place on success, and the end of the operation. -/
theorem injectIsOneTransaction : Obligations.InjectIsOneTransaction := by
  intro s ts ha hc hs hd hl
  have hencode : encodeFrom s.cfg s.carrier s.encoder = encode s.cfg s.carrier ts := by rw [hs, encode]
  constructor
  · intro c' hok
    rw [step_encoder ha hc, runEncoder, hencode, hok]
    exact congrArg _ (finish_of_idle (s := { s with carrier := c' }) hd hl _)
  · intro e herr
    rw [step_encoder ha hc, runEncoder, hencode, herr]
    exact congrArg _ (finish_of_idle hd hl _)

end Sys2Proof.Machine
end

