-- ==== Sys2Proof/Proofs/Decode.lean ====
section
/-! PROOFS. The decoder's half of 40_codec.md: what a carrier decodes to (R133 to R139), the errors of Decode (R134 to
R136, R252), the round trip (R140), the continuation marker (R134, R141), and the frame of the decode step (R138). -/

namespace Sys2Proof.Machine

/-! ### Decode, pixel by pixel (R133) -/

/-- The embedded pixel at offset `k` stands for the token `t` of `toks` (R133, R134): its delta from the pixel before is
`t`'s vector, or it equals that pixel, which stands for `t`. -/
def StandsFor (cfg : Config) (c : Carrier) (toks : List Token) (k : Nat) (t : Token) : Prop :=
  ∃ cur prev, c.pix[cfg.origin + k]? = some cur ∧ pixelBefore cfg c k = some prev ∧
    (cur.sub prev = cfg.deltaTable.vectorFor t ∨ (cur = prev ∧ 0 < k ∧ toks[k - 1]? = some t))

/-- The pixel before offset `k`, read off the pixels from the origin on. -/
theorem drop_origin_before (cfg : Config) (c : Carrier) (k : Nat) :
    (if k = 0 then some (startPixel cfg c) else (c.pix.drop cfg.origin)[k - 1]?) = pixelBefore cfg c k := by
  cases k <;> simp [pixelBefore]

/-- The token before offset `k`: there is none at the first. -/
theorem prevToken_eq_some {toks : List Token} {k : Nat} {t : Token} :
    (if k = 0 then none else toks[k - 1]?) = some t ↔ 0 < k ∧ toks[k - 1]? = some t := by
  cases k <;> simp

/-- `StandsFor`, as the laws of the decode loop say it of the pixels from the origin on. -/
theorem standsFor_iff {cfg : Config} {c : Carrier} {toks : List Token} {k : Nat} {t : Token} :
    StandsFor cfg c toks k t ↔ ∃ cur prev, (c.pix.drop cfg.origin)[k]? = some cur ∧
      (if k = 0 then some (startPixel cfg c) else (c.pix.drop cfg.origin)[k - 1]?) = some prev ∧
      (cur.sub prev = cfg.deltaTable.vectorFor t ∨
        (cur = prev ∧ (if k = 0 then none else toks[k - 1]?) = some t)) := by
  simp only [StandsFor, drop_origin_before, prevToken_eq_some]
  simp only [List.getElem?_drop]

/-- What a carrier decodes to is what its pixels from the origin on stand for. -/
theorem follows_of_decode {cfg : Config} {c : Carrier} {toks : List Token} (h : decode cfg c = .ok toks) :
    Follows cfg.deltaTable (c.pix.drop cfg.origin) (startPixel cfg c) none toks := by
  obtain ⟨new, rfl, hnew⟩ := follows_of_decodePixels _ _ _ _ (decode_ok_iff.1 h)
  exact hnew

/-- Under a well-formed table the converse holds too. -/
theorem decode_of_follows {cfg : Config} {c : Carrier} {toks : List Token} (hdt : cfg.deltaTable.wf = true)
    (h : Follows cfg.deltaTable (c.pix.drop cfg.origin) (startPixel cfg c) none toks) : decode cfg c = .ok toks :=
  decode_ok_iff.2 (decodePixels_of_follows hdt _ (DecoderWork.start cfg c) _ h)

/-- `Follows` from the origin on, in terms of the carrier. -/
theorem follows_origin_iff {cfg : Config} {c : Carrier} {toks : List Token} :
    Follows cfg.deltaTable (c.pix.drop cfg.origin) (startPixel cfg c) none toks ↔
      EndsOnce toks ∧ ∀ k t, toks[k]? = some t → StandsFor cfg c toks k t := by
  simp only [follows_iff, standsFor_iff]

/-- Settles O16: both directions go through what the pixels stand for. -/
theorem decodeIsDeterminedByTheDeltas : Obligations.DecodeIsDeterminedByTheDeltas :=
  fun _ _ _ hdt => Iff.trans ⟨follows_of_decode, decode_of_follows hdt⟩ follows_origin_iff

/-! ### The round trip (R140) -/

/-- A token that begins no run is not the first, and repeats the one before. -/
theorem repeats_of_not_beginsRun {ts : List Token} {k : Nat} (h : beginsRun ts k = false) :
    0 < k ∧ ts[k]? = ts[k - 1]? := by
  simp only [beginsRun, Bool.or_eq_false_iff, decide_eq_false_iff_not, not_not] at h
  obtain ⟨⟨hk, hsame⟩, -⟩ := h
  exact ⟨Nat.pos_of_ne_zero hk, hsame⟩

/-- Every pixel that Encode writes stands for its token: a run's head by its delta, the others as continuations. -/
theorem encode_standsFor {cfg : Config} {c c' : Carrier} {ts : List Token} (hc : c.wf = true)
    (h : encode cfg c ts = .ok c') {k : Nat} {t : Token} (ht : ts[k]? = some t) : StandsFor cfg c' ts k t := by
  obtain ⟨cur, prev, hcur, hprev, hdelta, -⟩ := encodedPixelsHaveTheClosedForm cfg c c' ts hc h k t ht
  refine ⟨cur, prev, hcur, hprev, ?_⟩
  cases hb : beginsRun ts k with
  | true => exact .inl (by rw [hdelta, hb, if_pos rfl])
  | false =>
    obtain ⟨hk, hsame⟩ := repeats_of_not_beginsRun hb
    have hzero : cur.sub prev = Pixel.zero := by simpa [hb] using hdelta
    exact .inr ⟨(px_sub_eq_zero cur prev).1 hzero, hk, hsame ▸ ht⟩

/-- Settles O22: the pixels that Encode writes stand for the tokens, and what pixels stand for is what they decode to. -/
theorem decodeInvertsEncodeOnCarriers : Obligations.DecodeInvertsEncodeOnCarriers := by
  intro cfg c c' ts hdt hc h
  obtain ⟨hends, -⟩ := encode_ok h
  exact decode_of_follows hdt (follows_origin_iff.2 ⟨hends, fun _ _ => encode_standsFor hc h⟩)

/-! ### The pixels Decode reads (R136 to R139) -/

/-- A decode whose loop fails at offset `k`. -/
theorem decode_of_failed {cfg : Config} {c : Carrier} {r : CorruptReason} {k : Nat}
    (h : decodePixels cfg.deltaTable (c.pix.drop cfg.origin) (DecoderWork.start cfg c) = .failed r k) :
    decode cfg c = .error (corruptErr cfg r k) := by
  have hfrom : decodeFrom cfg c (DecoderWork.start cfg c) = .failed r k := h
  rw [decode, hfrom]

/-- A decode starts the same on carriers that agree below some index from the origin on. -/
theorem decoderStart_congr {cfg : Config} {c c' : Carrier} {n : Nat}
    (h : ∀ i, i < cfg.origin + n → c'.pix[i]? = c.pix[i]?) : DecoderWork.start cfg c' = DecoderWork.start cfg c := by
  have hbase : startPixel cfg c' = startPixel cfg c := startPixel_congr fun h0 => h _ (by omega)
  rw [DecoderWork.start, hbase, DecoderWork.start]

/-- A decode that succeeds is the same on a carrier with the same pixels up to the end of the stream. -/
theorem decode_ok_congr {cfg : Config} {c c' : Carrier} {toks : List Token} (h : decode cfg c = .ok toks)
    (hagree : ∀ i, i < cfg.origin + toks.length → c'.pix[i]? = c.pix[i]?) : decode cfg c' = .ok toks := by
  rw [decode_ok_iff, decoderStart_congr hagree]
  refine decodePixels_prefix _ _ _ _ toks (decode_ok_iff.1 h) fun i hi => ?_
  rw [List.getElem?_drop, List.getElem?_drop]
  exact hagree _ (Nat.add_lt_add_left hi _)

/-- A carrier that is cut off before the end of the stream holds a truncated stream. -/
theorem decode_cut {cfg : Config} {c c' : Carrier} {toks : List Token} {m : Nat} (h : decode cfg c = .ok toks)
    (hm : m < toks.length) (hcut : c'.pix = c.pix.take (cfg.origin + m)) :
    decode cfg c' = .error (corruptErr cfg .truncated m) := by
  have hstart : DecoderWork.start cfg c' = DecoderWork.start cfg c :=
    decoderStart_congr fun i hi => by rw [hcut, List.getElem?_take_of_lt hi]
  have htake := decodePixels_take _ _ _ toks (decode_ok_iff.1 h) m hm
  apply decode_of_failed
  rw [hstart, hcut, List.drop_take, Nat.add_sub_cancel_left, htake]
  exact congrArg _ (Nat.zero_add m)

/-- Settles O17: the stream ends once, the pixels after it do not matter, and those before its end are needed. -/
theorem decodeReadsExactlyTheStream : Obligations.DecodeReadsExactlyTheStream := by
  intro cfg c toks h
  obtain ⟨hends, -⟩ := follows_origin_iff.1 (follows_of_decode h)
  exact ⟨hends, fun _ => decode_ok_congr h, fun _ _ => decode_cut h⟩

/-! ### The errors of Decode (R134 to R136, R252) -/

/-- A pixel equal to the one before is a continuation. -/
theorem pixel_prev (dt : DeltaTable) (w : DecoderWork) : w.pixel dt w.prev = w.continuation := by
  rw [pixel_eq, if_pos rfl]

/-- The pixels from an index on begin with the pixel at that index. -/
theorem drop_of_getElem? {l : List Pixel} {i : Nat} {p : Pixel} (h : l[i]? = some p) :
    l.drop i = p :: l.drop (i + 1) := by
  obtain ⟨hi, rfl⟩ := List.getElem?_eq_some_iff.1 h
  exact List.drop_eq_getElem_cons hi

/-- Settles O18: the first pixel has no pixel before it to repeat, and without a first pixel the loop has ended. -/
theorem decodeRefusesLeadingContinuationAndEmptyStream :
    Obligations.DecodeRefusesLeadingContinuationAndEmptyStream := by
  intro cfg c hc
  constructor
  · intro hfirst
    apply decode_of_failed
    have hpixel : (DecoderWork.start cfg c).pixel cfg.deltaTable (startPixel cfg c) = .failed .leadingContinuation 0 :=
      pixel_prev _ (DecoderWork.start cfg c)
    rw [drop_of_getElem? hfirst, decodePixels, hpixel]
  · intro hend
    have hlen : c.pix.length = c.w * c.h := of_decide_eq_true hc
    apply decode_of_failed
    rw [List.drop_eq_nil_of_le (hlen ▸ hend)]
    rfl

/-- Settles O19: the law of a failing loop, read at the origin of the carrier. -/
theorem decodeErrorsRecordTheFailingPixel : Obligations.DecodeErrorsRecordTheFailingPixel := by
  intro cfg c e hc he
  obtain ⟨r, k, hfail, rfl⟩ := decodeFrom_start_err he
  obtain ⟨j, hj, ⟨toks, hlen, hne, hstands⟩, htrunc, hlead, hunknown⟩ := decodePixels_failed _ _ _ r k hfail
  obtain rfl : k = j := hj.trans (Nat.zero_add j)
  refine ⟨r, k, rfl, ⟨toks, hlen, hne, fun i t ht => standsFor_iff.2 (hstands i t ht)⟩, ?_, ?_, ?_⟩
  · intro hr
    have hpix : c.pix.length = c.w * c.h := of_decide_eq_true hc
    simpa [DecoderWork.start, hpix] using htrunc hr
  · intro hr
    obtain ⟨hk, -, hfirst⟩ := hlead hr
    exact ⟨hk, by simpa [DecoderWork.start] using hfirst⟩
  · intro d hr
    obtain ⟨cur, prev, hcur, hprev, hd⟩ := hunknown d hr
    exact ⟨cur, prev, by simpa [DecoderWork.start] using hcur, (drop_origin_before cfg c k).symm.trans hprev, hd⟩

/-! ### The continuation marker (R134, R141) -/

/-- The meaning of the continuation marker is the DECODER's. -/
theorem exec_continuation (s : State) : exec .continuation s = .next (s.afterPixel s.decoder.continuation) := rfl

/-- With no token before it a continuation fails. -/
theorem continuation_none {w : DecoderWork} (h : w.prevT = none) :
    w.continuation = .failed .leadingContinuation w.k := by
  simp [DecoderWork.continuation, h]

/-- After a token other than `EndOfProgram` a continuation is that token once more. -/
theorem continuation_some {w : DecoderWork} {t : Token} (h : w.prevT = some t) (ht : t ≠ .endOfProgram) :
    w.continuation = .more ⟨w.prev, some t, w.k + 1, w.toks ++ [t]⟩ := by
  simp [DecoderWork.continuation, h, DecoderWork.accept, ht]

/-- After `EndOfProgram` a continuation ends the token sequence (log 12). -/
theorem continuation_endOfProgram {w : DecoderWork} (h : w.prevT = some .endOfProgram) :
    w.continuation = .done (w.toks ++ [.endOfProgram]) := by
  simp [DecoderWork.continuation, h, DecoderWork.accept]

/-- Settles O20: the three cases of the previous token. -/
theorem continuationRepeatsThePreviousToken : Obligations.ContinuationRepeatsThePreviousToken := by
  intro s
  refine ⟨fun t h ht => ?_, fun h => ?_, fun h => ?_⟩
  · rw [exec_continuation, continuation_some h ht, State.afterPixel]
  · rw [exec_continuation, continuation_none h, State.afterPixel, corruptErr]
  · rw [exec_continuation, continuation_endOfProgram h, State.afterPixel]

/-- A continuation after which the decode goes on moves to the next offset. -/
theorem continuation_more_k {w w' : DecoderWork} (h : w.continuation = .more w') : w'.k = w.k + 1 := by
  cases hp : w.prevT with
  | none => simp [continuation_none hp] at h
  | some t =>
    by_cases ht : t = .endOfProgram
    · simp [continuation_endOfProgram (ht ▸ hp)] at h
    · rw [continuation_some hp ht] at h
      cases h
      rfl

section AtContinuation
variable {cfg : Config} {c : Carrier} {w : DecoderWork} (h : c.pix[cfg.origin + w.k]? = some w.prev)
include h

/-- The decode goes on from the state after a continuation. -/
theorem decodeFrom_continuation_more {w' : DecoderWork} (hw : w.continuation = .more w') :
    decodeFrom cfg c w = decodeFrom cfg c w' := by
  rw [decodeFrom, drop_of_getElem? h, decodePixels, pixel_prev, hw, decodeFrom, continuation_more_k hw, Nat.add_assoc]

/-- The decode ends with a continuation that ends it. -/
theorem decodeFrom_continuation_ends (hw : ∀ w', w.continuation ≠ .more w') : decodeFrom cfg c w = w.continuation := by
  rw [decodeFrom, drop_of_getElem? h, decodePixels, pixel_prev]
  cases hd : w.continuation with
  | more w' => exact absurd hd (hw w')
  | done toks => rfl
  | failed r k => rfl

end AtContinuation

/-- What a decode makes of the machine does not depend on the working state it replaces. -/
theorem afterPixel_withDecoder (s : State) (w : DecoderWork) (d : DecodeStep) :
    { s with decoder := w }.afterPixel d = s.afterPixel d := by cases d <;> rfl

/-- Only a pixel after which the decode goes on leaves the DECODER active. -/
theorem afterPixel_active_of_not_more {s : State} {d : DecodeStep} (hd : ∀ w, d ≠ .more w) :
    (s.afterPixel d).active ≠ .decoder := by
  cases d with
  | more w => exact absurd rfl (hd w)
  | done toks => simp [State.afterPixel]
  | failed r k => simp [State.afterPixel]

/-- Settles O21: either the decode goes on from the state after the continuation, or it ends with it. -/
theorem decoderRunsTheContinuationItMeets : Obligations.DecoderRunsTheContinuationItMeets := by
  intro s ha hc h
  refine ⟨_, exec_continuation s, ?_⟩
  rw [step_decoder ha hc, runDecoder]
  by_cases hmore : ∃ w, s.decoder.continuation = .more w
  · obtain ⟨w, hw⟩ := hmore
    have hnext : step (s.afterPixel (.more w)) = .next (s.afterPixel (decodeFrom s.cfg s.carrier w)) :=
      (step_decoder (s := { s with decoder := w }) ha hc).trans (congrArg _ (afterPixel_withDecoder s w _))
    rw [decodeFrom_continuation_more h hw, hw]
    exact ⟨fun _ => hnext.symm, fun hne => absurd ha hne⟩
  · have hends : ∀ w, s.decoder.continuation ≠ .more w := fun w hw => hmore ⟨w, hw⟩
    rw [decodeFrom_continuation_ends h hends]
    exact ⟨fun hact => absurd hact (afterPixel_active_of_not_more hends), fun _ => rfl⟩

/-! ### The frame of the decode step (R138) -/

/-- A decode changes the working states, the active agent and the answers alone. -/
theorem afterPixel_frame (s : State) (d : DecodeStep) : ∃ act enc dec ld resp, s.afterPixel d =
    { s with active := act, encoder := enc, decoder := dec, loader := ld, responses := resp } := by
  cases d <;> exact ⟨_, _, _, _, _, rfl⟩

/-- A decode step that answers a next state runs under a well-formed configuration, so it is the transaction. -/
theorem step_decoder_next {s t : State} (ha : s.active = .decoder) (h : step s = .next t) : t = runDecoder s := by
  cases hc : s.cfg.wf with
  | true => exact Host.Outcome.next.inj (h.symm.trans (step_decoder ha hc))
  | false =>
    rw [step_active_illFormed (by simp [ha]) hc] at h
    cases h

/-- Settles O30: none of the fields is among those that a decode changes. -/
theorem decodeStepIsReadOnly : Obligations.DecodeStepIsReadOnly := by
  intro s t ha h
  obtain ⟨act, enc, dec, ld, resp, hframe⟩ := afterPixel_frame s (decodeFrom s.cfg s.carrier s.decoder)
  rw [step_decoder_next ha h, runDecoder, hframe]
  exact ⟨rfl, rfl, rfl, rfl, rfl, rfl, rfl, rfl, rfl, rfl, rfl, rfl, rfl⟩

end Sys2Proof.Machine
end

