-- ==== Sys2Proof/Proofs/Loader.lean ====
section
/-! PROOFS. The loader of 41_loader.md: the program sequence (R160), when Load succeeds (R165), the position that each of its
two errors reports (R163, R164), and the jump table of a successful Load (R166). -/

namespace Sys2Proof.Machine

/-! ### The program sequence (R160) -/

/-- The program sequence stops at the first `EndOfProgram`. -/
theorem normalise_append_endOfProgram {body : List Token} (rest : List Token) (h : Token.endOfProgram ∉ body) :
    normalise (body ++ .endOfProgram :: rest) = body ++ [.endOfProgram] := by
  induction body with
  | nil => rfl
  | cons t body ih =>
    obtain ⟨ht, hbody⟩ := not_or.1 (mt List.mem_cons.2 h)
    rw [List.cons_append, normalise, if_neg (Ne.symm ht), ih hbody, List.cons_append]

/-- Without an `EndOfProgram` the program sequence is the whole sequence, closed by one. -/
theorem normalise_of_notMem {ts : List Token} (h : Token.endOfProgram ∉ ts) :
    normalise ts = ts ++ [.endOfProgram] := by
  induction ts with
  | nil => rfl
  | cons t ts ih =>
    obtain ⟨ht, hts⟩ := not_or.1 (mt List.mem_cons.2 h)
    rw [normalise, if_neg (Ne.symm ht), ih hts, List.cons_append]

/-- The first `EndOfProgram`, where there is one, splits the sequence; either way the body before the end holds none. -/
theorem normalise_endsOnce (ts : List Token) : EndsOnce (normalise ts) := by
  by_cases hmem : Token.endOfProgram ∈ ts
  · obtain ⟨body, rest, rfl, hbody⟩ := List.eq_append_cons_of_mem hmem
    exact ⟨body, normalise_append_endOfProgram rest hbody, hbody⟩
  · exact ⟨ts, normalise_of_notMem hmem, hmem⟩

/-- Settles O23: the two cases of the first `EndOfProgram`, each by induction on the tokens before it. -/
theorem normaliseEndsTheProgramOnce : Obligations.NormaliseEndsTheProgramOnce := by
  refine fun ts => ⟨normalise_endsOnce ts, ?_, normalise_of_notMem⟩
  rintro body rest rfl hbody
  exact normalise_append_endOfProgram rest hbody

/-! ### What Load answers, by the shape of the program sequence

A program sequence is balanced, or a LoopClose in it meets an empty stack, or LoopOpens are left on the stack at its end.
`load_spec` gives the answer in each case; here the three shapes exclude each other, so the shape decides the answer. -/

/-- A stretch with an unmatched LoopOpen is deeper than 0. -/
theorem not_balanced_of_openStack {p : List Token} {j : Nat} {st : List Nat} (h : OpenStack p (j :: st)) :
    ¬ Balanced p := by
  intro hbal
  have hnil : OpenStack p [] := hbal
  cases seg_unique h hnil

/-- What a successful Load answers: the program sequence, which is balanced, and the table of the whole scan. -/
theorem load_ok {ts prog : List Token} {jt : JumpTable} (h : load ts = .ok (prog, jt)) :
    prog = normalise ts ∧ Balanced (normalise ts) ∧ ScanInv (normalise ts) [] jt := by
  obtain ⟨jt', hok, hbal, hinv⟩ | ⟨_, _, _, _, herr⟩ | ⟨_, _, _, herr⟩ := load_spec ts
  · cases h.symm.trans hok
    exact ⟨rfl, hbal, hinv⟩
  · cases h.symm.trans herr
  · cases h.symm.trans herr

/-- A balanced program sequence loads. -/
theorem load_of_balanced {ts : List Token} (h : Balanced (normalise ts)) : ∃ r, load ts = .ok r := by
  obtain ⟨jt, hok, -⟩ | ⟨a, b, hp, ha, -⟩ | ⟨_, _, hstack, -⟩ := load_spec ts
  · exact ⟨_, hok⟩
  · exact absurd (hp ▸ h.1) (not_balanced_close ha.2)
  · exact absurd h (not_balanced_of_openStack hstack)

/-- Settles O24: a successful Load has balanced brackets, and balanced brackets load. -/
theorem loadSucceedsExactlyOnBalancedBrackets : Obligations.LoadSucceedsExactlyOnBalancedBrackets := by
  refine fun ts => ⟨?_, load_of_balanced⟩
  rintro ⟨⟨prog, jt⟩, h⟩
  obtain ⟨-, hbal, -⟩ := load_ok h
  exact hbal

/-! ### The positions of the errors (R163, R164) -/

/-- Of two balanced stretches before a LoopClose of the same sequence, neither is longer than the other: the longer one
would hold the LoopClose that the shorter one leaves unmatched. -/
theorem length_le_of_close_eq {a b c d : List Token} (h : a ++ .loopClose :: b = c ++ .loopClose :: d)
    (ha : Balanced a) (hc : Balanced c) : c.length ≤ a.length := by
  by_contra hlt
  have hprefix : a ++ [.loopClose] <+: c := by
    refine List.prefix_of_prefix_length_le (l₃ := a ++ .loopClose :: b) ⟨b, by simp⟩ ⟨_, h.symm⟩ ?_
    rw [List.length_append, List.length_singleton]
    omega
  obtain ⟨x, rfl⟩ := hprefix
  rw [List.append_assoc, List.singleton_append] at hc
  exact not_balanced_close ha.2 hc.1

/-- Settles O25: a LoopClose after a balanced stretch rules out the other two shapes, and there is only one. -/
theorem unmatchedCloseIsReportedAtItsIndex : Obligations.UnmatchedCloseIsReportedAtItsIndex := by
  intro ts before after hp hbefore
  have hbelow : ¬ NeverBelow (normalise ts) := hp ▸ not_balanced_close hbefore.2
  obtain ⟨_, -, hbal, -⟩ | ⟨a, b, hp', ha, herr⟩ | ⟨_, _, hstack, -⟩ := load_spec ts
  · exact absurd hbal.1 hbelow
  · have hsame := hp'.symm.trans hp
    rw [herr, le_antisymm (length_le_of_close_eq hsame.symm hbefore ha) (length_le_of_close_eq hsame ha hbefore)]
  · exact absurd (seg_depth hstack).2 hbelow

/-- Load reports the top of the stack that is left at the end of the program sequence. -/
theorem load_of_openStack {ts : List Token} {j : Nat} {st : List Nat} (h : OpenStack (normalise ts) (j :: st)) :
    load ts = .error (.unmatchedBracket j) := by
  obtain ⟨_, -, hbal, -⟩ | ⟨a, b, hp, ha, -⟩ | ⟨_, _, hstack, herr⟩ := load_spec ts
  · exact absurd hbal (not_balanced_of_openStack h)
  · exact absurd (hp ▸ (seg_depth h).2) (not_balanced_close ha.2)
  · cases seg_unique h hstack
    exact herr

/-- Settles O26: the LoopOpen before the balanced rest is on top of the stack that the tokens before it leave. -/
theorem unclosedOpenReportsTheInnermost : Obligations.UnclosedOpenReportsTheInnermost := by
  intro ts before after hp hbelow hafter
  rw [hp] at hbelow
  obtain ⟨st, hst⟩ := neverBelow_seg before (neverBelow_left hbelow)
  exact load_of_openStack (hp ▸ seg_mk hafter hst)

/-! ### The jump table of a successful Load (R166) -/

/-- The end of the program is no bracket, so a bracket stands before it. -/
theorem EndsOnce.lt_of_isBracketAt {p : List Token} (h : EndsOnce p) {i : Nat} (hi : IsBracketAt p i) :
    i + 1 < p.length := by
  obtain ⟨body, rfl, -⟩ := h
  have hlt : i < (body ++ [Token.endOfProgram]).length := isBracket_lt hi
  have hne : i ≠ body.length := by
    rintro rfl
    simp [IsBracketAt] at hi
  simp only [List.length_append, List.length_singleton] at hlt ⊢
  omega

/-- With the stack empty at the end of a program, the table of the scan is the right one: a partner is a bracket too. -/
theorem ScanInv.jumpTableRight {p : List Token} {jt : JumpTable} (h : ScanInv p [] jt) (hends : EndsOnce p) :
    JumpTableRight p jt where
  defined i := by simpa using h.defined i
  bidirectional := h.bid
  fromOpen := h.fo
  fromClose := h.fc
  inside := h.inside
  nested := h.nested
  beforeEnd i j hij := by
    have hback : (JumpTable.target jt j).isSome = true := Option.isSome_of_mem (h.bid i j hij)
    obtain ⟨hbracket, -⟩ := (h.defined j).1 hback
    exact hends.lt_of_isBracketAt hbracket

/-- Settles O27: the invariant of the scan, at the end of the program sequence. -/
theorem loadBuildsTheRightJumpTable : Obligations.LoadBuildsTheRightJumpTable := by
  intro ts prog jt h
  obtain ⟨rfl, -, hscan⟩ := load_ok h
  exact ⟨rfl, hscan.jumpTableRight (normalise_endsOnce ts)⟩

end Sys2Proof.Machine
end

