-- ==== Sys2Proof/Proofs/EngineStep.lean ====
section
/-! PROOFS. The ENGINE's step of 42_engine_cycle.md: the end of a run (R187), the limit check (R182), the fetched instruction
(R183 to R186), a hold (R188), what raises (R192), and where `ip` goes (R185). -/

namespace Sys2Proof.Machine

/-! ### The end of a run, and the idle machine (R181, R187) -/

/-- The step of an ended engine is the return of its run. -/
theorem step_engine_ended {s : State} (ha : s.active = .engine) (hc : s.cfg.wf = true) (hs : s.status ≠ .running) :
    step s = .next s.returnRun := by
  cases hst : s.status with
  | running => exact absurd hst hs
  | halted | faulted e => simp [step, cycle, ha, hc, hst]

/-- With no operation in progress and none requested a step changes nothing (log 7). -/
theorem step_host_idle {s : State} (ha : s.active = .host) (hp : s.pending = []) : step s = .next s := by
  simp [step, cycle, ha, State.hostStep, hp]

/-- Settles O33: the return of the run is the end of the operation with status and output. -/
theorem endedEngineOnlyReturnsItsResult : Obligations.EndedEngineOnlyReturnsItsResult :=
  fun _ => ⟨step_engine_ended, step_host_idle⟩

/-! ### The step limit (R182) -/

/-- A running engine that has reached its limit raises. -/
theorem step_engine_limit {s : State} (ha : s.active = .engine) (hc : s.cfg.wf = true) (hr : s.status = .running)
    (hl : s.limitReached = true) : step s = .next (s.raise (.stepLimitExceeded s.ip s.steps)) := by
  simp [step, cycle, ha, hc, hr, engineStep, hl]

/-- Settles O36: a reached limit is raised before the fetch, and raising changes `status` alone. -/
theorem stepLimitIsCheckedFirst : Obligations.StepLimitIsCheckedFirst := by
  intro s l ha hc hr hl hle
  have hreached : s.limitReached = true := by simpa [State.limitReached, hl] using hle
  exact step_engine_limit ha hc hr hreached

/-! ### The fetched instruction (R183, R184, R186) -/

/-- The step of an instruction that does not hold is its meaning, and the step counter. -/
theorem step_engine_exec {s : State} {t : Token} (hf : Fetches s t) (hh : ¬(t = .input ∧ SourceWaits s)) :
    step s = retire (exec t.toInstr s) := by
  rw [step_engine hf, if_neg (mt holds_iff.1 hh)]

/-- Settles O34: the three outcomes of the meaning under the step counter. -/
theorem stepRunsTheFetchedInstruction : Obligations.StepRunsTheFetchedInstruction := by
  intro s t hf hh
  rw [step_engine_exec hf hh]
  refine ⟨fun s' hx hst => ?_, fun s' e hx hst => ?_, fun f hx => ?_⟩
  · rw [hx, retire_next hst, State.countStep]
  · rw [hx, retire_faulted hst]
  · rw [hx, retire]

/-! ### A hold (R188, R44) -/

/-- The step of an Input that holds is the HOST's next action. -/
theorem step_engine_holds {s : State} (hf : Fetches s .input) (hw : SourceWaits s) : step s = .next s.hostArrival := by
  rw [step_engine hf, if_pos (holds_iff.2 ⟨rfl, hw⟩)]

/-- The meaning of an Input that holds changes nothing. -/
theorem exec_input_holds {s : State} (hw : SourceWaits s) : exec .input s = .next s := by
  rw [exec_input, poll_notYet.2 hw]

/-- With no action left a hold goes on. -/
theorem hostArrival_nil {s : State} (h : s.arrivals = []) : s.hostArrival = s := by
  simp [State.hostArrival, h]

/-- A scheduled byte is appended to an open source. -/
theorem hostArrival_byte {s : State} {b : Byte} {rest : List Arrival} (h : s.arrivals = .byte b :: rest)
    (ho : s.closed = false) : s.hostArrival = { s with input := s.input ++ [b], arrivals := rest } := by
  simp [State.hostArrival, h, State.hostByte, ho]

/-- A scheduled closing closes the source. -/
theorem hostArrival_close {s : State} {rest : List Arrival} (h : s.arrivals = .close :: rest) :
    s.hostArrival = { s with closed := true, arrivals := rest } := by
  simp [State.hostArrival, h, State.hostClose]

/-- Settles O37: the step of a hold is the HOST's next action, whatever the schedule's head is. -/
theorem inputHoldsUntilTheHostActs : Obligations.InputHoldsUntilTheHostActs := by
  intro s hf hw
  rw [step_engine_holds hf hw]
  exact ⟨exec_input_holds hw, fun h => congrArg _ (hostArrival_nil h),
    fun b rest h => congrArg _ (hostArrival_byte h hw.2), fun rest h => congrArg _ (hostArrival_close h)⟩

/-! ### How an instruction ends: what raises, and where `ip` goes (R185, R187, R188, R192) -/

/-- The partner of the bracket at `ip` is taken: LoopOpen on a zero cell, LoopClose on a nonzero cell. -/
def TakesJump (s : State) (t : Token) (j : Nat) : Prop :=
  ((t = .loopOpen ∧ s.cell = 0) ∨ (t = .loopClose ∧ s.cell ≠ 0)) ∧ JumpTable.target s.jt s.ip = some j

/-- The ends of the tape, with the error each raises (R252). -/
def RaisesAtTapeEnd (s : State) (t : Token) (e : Err) : Prop :=
  (t = .moveLeft ∧ e = .tapeUnderflow s.ip) ∨ (t = .moveRight ∧ e = .tapeOverflow s.ip s.dp)

/-- The five ways in which the instruction `t` leads from `s` to `s'`. -/
inductive Ends (s : State) (t : Token) (s' : State) : Prop where
  | advances (status : s'.status = s.status) (ip : s'.ip = s.ip + 1)
  | jumps (status : s'.status = s.status) (jump : TakesJump s t s'.ip)
  | halts (halted : s' = s.halt)
  | raises (e : Err) (cause : RaisesAtTapeEnd s t e) (raised : s' = s.raise e)
  | holds (waits : t = .input ∧ SourceWaits s) (same : s' = s)

/-- Each case of an instruction is one of the five ways. -/
theorem exec_ends {s s' : State} {t : Token} (h : exec t.toInstr s = .next s') : Ends s t s' := by
  rcases exec_token_cases h with hMoveRight | hMoveLeft | hArith | hOutput | hInput | hLoopOpen | hLoopClose | hEnd
  · obtain ⟨ht, ⟨-, rfl⟩ | ⟨-, rfl⟩⟩ := hMoveRight
    · exact .raises _ (.inr ⟨ht, rfl⟩) rfl
    · exact .advances rfl rfl
  · obtain ⟨ht, ⟨-, -, rfl⟩ | ⟨-, -, rfl⟩ | ⟨-, rfl⟩⟩ := hMoveLeft
    · exact .raises _ (.inl ⟨ht, rfl⟩) rfl
    all_goals exact .advances rfl rfl
  · obtain ⟨-, -, v, rfl⟩ := hArith
    exact .advances rfl rfl
  · obtain ⟨-, -, rfl⟩ := hOutput
    exact .advances rfl rfl
  · obtain ⟨ht, ⟨-, b, -, rfl⟩ | ⟨-, ⟨-, rfl⟩ | rfl | rfl⟩ | ⟨hwait, rfl⟩⟩ := hInput
    · exact .advances rfl rfl
    · exact .advances rfl rfl
    · exact .advances rfl rfl
    · exact .halts rfl
    · exact .holds ⟨ht, poll_notYet.1 hwait⟩ rfl
  · obtain ⟨ht, -, ⟨hzero, j, hj, rfl⟩ | ⟨-, rfl⟩⟩ := hLoopOpen
    · exact .jumps rfl ⟨.inl ⟨ht, hzero⟩, hj⟩
    · exact .advances rfl rfl
  · obtain ⟨ht, -, ⟨hnonzero, j, hj, rfl⟩ | ⟨-, rfl⟩⟩ := hLoopClose
    · exact .jumps rfl ⟨.inr ⟨ht, hnonzero⟩, hj⟩
    · exact .advances rfl rfl
  · obtain ⟨-, rfl⟩ := hEnd
    exact .halts rfl

/-- Settles O39: of the five ways only the raising one leaves a running engine faulted. -/
theorem raisingInstructionChangesOnlyStatus : Obligations.RaisingInstructionChangesOnlyStatus := by
  intro s s' t e hr h hst
  cases exec_ends h with
  | advances status ip => simp [status, hr] at hst
  | jumps status jump => simp [status, hr] at hst
  | halts halted => simp [halted] at hst
  | raises e' cause raised =>
    subst raised
    cases hst
    exact ⟨rfl, cause⟩
  | holds waits same => simp [same, hr] at hst

/-- Settles O41: an instruction that does not hold advances, takes its jump, or ends the run where it stands. -/
theorem instructionPointerAdvancesByOneOrJumps : Obligations.InstructionPointerAdvancesByOneOrJumps := by
  intro s s' t hr hh h
  cases exec_ends h with
  | advances status ip => exact .inl ⟨status.trans hr, ip⟩
  | jumps status jump =>
    obtain ⟨⟨ht, hzero⟩ | ⟨ht, hnonzero⟩, hj⟩ := jump
    · exact .inr (.inl ⟨status.trans hr, ht, hzero, hj⟩)
    · exact .inr (.inr (.inl ⟨status.trans hr, ht, hnonzero, hj⟩))
  | halts halted => exact .inr (.inr (.inr (by simp [halted])))
  | raises e cause raised => exact .inr (.inr (.inr (by simp [raised])))
  | holds waits same => exact absurd waits hh

/-! ### The placing of one instruction (R183, R133; log 4) -/

/-- The program placed for a token holds the token where `ip` is placed. -/
theorem programFor_fetches (t : Token) : (programFor t).1[(programFor t).2.2]? = some t := by
  cases t <;> rfl

/-- A placed token is fetched next. -/
theorem placeToken_fetches {s : State} (hc : s.cfg.wf = true) (hb : BelowLimit s) (t : Token) :
    Fetches (s.placeToken t) t :=
  ⟨rfl, hc, rfl, hb, programFor_fetches t⟩

/-- A table word of a token is placed as that token. -/
theorem placeWord_token {nbits w : Nat} {t : Token} (h : decodeTableWord nbits w = some t.toInstr) (s : State) :
    s.placeWord nbits w = s.placeToken t := by
  simp [State.placeWord, h, token?_toInstr]

/-- A table word of the continuation marker is placed as the zero delta. -/
theorem placeWord_continuation {nbits w : Nat} (h : decodeTableWord nbits w = some .continuation) (s : State) :
    s.placeWord nbits w = s.placePixel Pixel.zero := by
  simp [State.placeWord, h, Instr.token?, encodeDelta]

/-- The zero delta is placed as a repeat of the pixel before it. -/
theorem placePixel_zero_pixel (s : State) :
    (s.placePixel Pixel.zero).carrier.pix[s.cfg.origin + 0]? = some (s.placePixel Pixel.zero).decoder.prev := by
  simp [State.placePixel, Pixel.add, Pixel.zero]

/-- The DECODER that meets a placed zero delta runs the continuation marker: with no token before it, the decode ends. -/
theorem step_placePixel_zero {s : State} (hc : s.cfg.wf = true) :
    step (s.placePixel Pixel.zero) = exec .continuation (s.placePixel Pixel.zero) := by
  have hends : ∀ w, (s.placePixel Pixel.zero).decoder.continuation ≠ .more w := by
    rw [continuation_none rfl]
    simp
  have hstep : step (s.placePixel Pixel.zero) = .next (runDecoder (s.placePixel Pixel.zero)) := step_decoder rfl hc
  have hdecode : decodeFrom s.cfg (s.placePixel Pixel.zero).carrier (s.placePixel Pixel.zero).decoder = _ :=
    decodeFrom_continuation_ends (placePixel_zero_pixel s) hends
  rw [hstep, exec_continuation, runDecoder, ← hdecode]
  rfl

/-- Settles O35: a token goes into a program that holds it, the continuation marker into a carrier that meets it. -/
theorem placedWordIsRunNext : Obligations.PlacedWordIsRunNext := by
  intro s nbits w hc hb
  constructor
  · intro t h
    rw [State.withFetchWord, placeWord_token h]
    exact ⟨placeToken_fetches hc hb t, _, _, _, rfl⟩
  · intro h
    rw [State.withFetchWord, placeWord_continuation h]
    exact step_placePixel_zero hc

end Sys2Proof.Machine
end

