-- ==== Sys2Proof/Proofs/MachineStep.lean ====
section
/-! PROOFS. Everything a step of the machine can do when it answers a next state: the start of an operation (R8, R284, R285),
the transactions of the other agents, and the frame of the ENGINE's step; and stretches of steps. -/

namespace Sys2Proof.Machine

/-! ### The start of an operation (R8, R284, R285) -/

/-- The configuration a request brings. -/
def Operation.config : Operation → Config
  | .inject cfg _ _ => cfg
  | .run cfg _ _ _ _ => cfg

/-- The carrier a request works on, where the machine holds the buffer `held` (log 13). -/
def Operation.carrierFrom (held : Carrier) : Operation → Carrier
  | .inject _ _ c => c.getD held
  | .run _ c _ _ _ => c.getD held

/-- What the start of a request makes of the machine once both checks have passed. -/
def State.started (s : State) : Operation → State
  | .inject cfg ts c =>
    { s with
      cfg := cfg, carrier := c.getD s.carrier, active := .encoder,
      encoder := EncoderWork.start cfg (c.getD s.carrier) ts }
  | .run cfg c inp cl arr =>
    { s.resetEngine [] [] with
      cfg := cfg, carrier := c.getD s.carrier, active := .decoder,
      decoder := DecoderWork.start cfg (c.getD s.carrier), input := inp, closed := cl, arrivals := arr }

/-- Both operations start with the same two checks. -/
theorem begin_eq (s : State) (op : Operation) :
    s.begin op =
      if !op.config.wf then .refused .illFormedConfig
      else if !(op.carrierFrom s.carrier).wf then .refused .malformedCarrier
      else .next (s.started op) := by
  cases op <;> rfl

/-- Everything the start of an operation can do. -/
theorem begin_cases (s : State) (op : Operation) :
    (op.config.wf = false ∧ s.begin op = .refused .illFormedConfig) ∨
    ((op.carrierFrom s.carrier).wf = false ∧ s.begin op = .refused .malformedCarrier) ∨
    (op.config.wf = true ∧ (op.carrierFrom s.carrier).wf = true ∧ s.begin op = .next (s.started op)) := by
  rw [begin_eq]
  cases hcfg : op.config.wf with
  | false => exact .inl ⟨rfl, rfl⟩
  | true =>
    cases hc : (op.carrierFrom s.carrier).wf with
    | false => exact .inr (.inl ⟨rfl, rfl⟩)
    | true => exact .inr (.inr ⟨rfl, rfl, rfl⟩)

/-- An operation that starts has passed both checks. -/
theorem begin_next {s s' : State} {op : Operation} (h : s.begin op = .next s') :
    op.config.wf = true ∧ (op.carrierFrom s.carrier).wf = true ∧ s' = s.started op := by
  obtain ⟨-, href⟩ | ⟨-, href⟩ | ⟨hcfg, hc, hnext⟩ := begin_cases s op
  · cases h.symm.trans href
  · cases h.symm.trans href
  · cases h.symm.trans hnext
    exact ⟨hcfg, hc, rfl⟩

/-! ### One step of the machine (R6) -/

/-- The HOST's step does nothing, or starts the next request. -/
theorem step_host_next {s s' : State} (ha : s.active = .host) (h : step s = .next s') :
    s' = s ∨ ∃ op rest, op.config.wf = true ∧ (op.carrierFrom s.carrier).wf = true ∧
      s' = { s with pending := rest }.started op := by
  cases hp : s.pending with
  | nil =>
    cases h.symm.trans (step_host_idle ha hp)
    exact .inl rfl
  | cons op rest =>
    rw [step_host_request ha hp] at h
    exact .inr ⟨op, rest, begin_next h⟩

/-- An agent's step that answers a next state ran under a well-formed configuration. -/
theorem config_of_step_next {s s' : State} (ha : s.active ≠ .host) (h : step s = .next s') : s.cfg.wf = true := by
  by_contra hc
  cases h.symm.trans (step_active_illFormed ha (by simpa using hc))

/-- The ENCODER's step is its transaction. -/
theorem step_encoder_next {s s' : State} (ha : s.active = .encoder) (h : step s = .next s') : s' = runEncoder s :=
  Host.Outcome.next.inj (h.symm.trans (step_encoder ha (config_of_step_next (by simp [ha]) h)))

/-- The LOADER's step is its transaction. -/
theorem step_loader_next {s s' : State} (ha : s.active = .loader) (h : step s = .next s') : s' = runLoader s :=
  Host.Outcome.next.inj (h.symm.trans (step_loader ha (config_of_step_next (by simp [ha]) h)))

/-! ### Stretches of steps -/

/-- One step, then a stretch of steps. -/
theorem run_succ {s s' : State} (h : step s = .next s') (n : Nat) :
    Host.Core.run core (n + 1) s = Host.Core.run core n s' := by
  have hcore : core.step s = .next s' := h
  simp only [Host.Core.run, hcore]

/-- A stretch of steps that answers a state begins with a step that does. -/
theorem run_succ_next {s t : State} {n : Nat} (h : Host.Core.run core (n + 1) s = .next t) :
    ∃ s', step s = .next s' ∧ Host.Core.run core n s' = .next t := by
  cases hs : step s with
  | next s' => exact ⟨s', rfl, (run_succ hs n).symm.trans h⟩
  | fault f =>
    have hcore : core.step s = .fault f := hs
    simp [Host.Core.run, hcore] at h
  | refused r =>
    have hcore : core.step s = .refused r := hs
    simp [Host.Core.run, hcore] at h

/-! ### The frame of the ENGINE's step (R43, R44) -/

/-- `s'` differs from `s` at most in the engine's registers and the tape. -/
def EngineFrame (s s' : State) : Prop :=
  ∃ ip dp tape cur out n st,
    s' = { s with ip := ip, dp := dp, tape := tape, inCursor := cur, out := out, steps := n, status := st }

/-- What the engine's own state leaves out. -/
theorem EngineFrame.kept {s s' : State} (h : EngineFrame s s') : s'.cfg = s.cfg ∧ s'.active = s.active ∧
    s'.closed = s.closed ∧ s'.arrivals = s.arrivals ∧ s'.responses = s.responses := by
  obtain ⟨_, _, _, _, _, _, _, rfl⟩ := h
  exact ⟨rfl, rfl, rfl, rfl, rfl⟩

/-- The step counter adds at most 1 to what the instruction answers. -/
theorem retire_steps {r : Result} {s' : State} (h : retire r = .next s') :
    ∃ s₁ n, r = .next s₁ ∧ s' = { s₁ with steps := n } ∧ n ≤ s₁.steps + 1 := by
  obtain ⟨s₁, hr, ⟨-, rfl⟩ | ⟨-, rfl⟩⟩ := retire_cases h
  · exact ⟨s', s'.steps, hr, rfl, Nat.le_succ _⟩
  · exact ⟨s₁, s₁.steps + 1, hr, rfl, le_rfl⟩

/-- An instruction and its count write only what the engine owns. -/
theorem retire_exec_engineFrame {s s' : State} {t : Token} (h : retire (exec t.toInstr s) = .next s') :
    EngineFrame s s' := by
  obtain ⟨s₁, n, hx, rfl, -⟩ := retire_steps h
  obtain ⟨⟨ip, dp, tape, cur, out, st, rfl⟩, -⟩ := exec_withinFrame hx
  exact ⟨ip, dp, tape, cur, out, n, st, rfl⟩

/-- The HOST's action changes the input source alone. -/
theorem hostArrival_withSource (s : State) : ∃ extra c arr, s.hostArrival = s.withSource extra c arr := by
  unfold State.hostArrival
  split
  next => exact ⟨[], s.closed, s.arrivals, by simp [State.withSource]⟩
  next b rest _ =>
    unfold State.hostByte
    split_ifs
    · exact ⟨[], s.closed, rest, by simp⟩
    · exact ⟨[b], s.closed, rest, rfl⟩
  next rest _ => exact ⟨[], true, rest, by simp [State.hostClose]⟩

/-- A running engine's step that does not hold writes only what the engine owns. -/
theorem running_step_engineFrame {s s' : State} (ha : s.active = .engine) (hr : s.status = .running)
    (hh : ¬(Fetches s .input ∧ SourceWaits s)) (h : step s = .next s') : EngineFrame s s' := by
  obtain ⟨-, ⟨hne, -⟩ | ⟨-, ⟨-, rfl⟩ | ⟨t, hf, ⟨rfl, hw, -⟩ | ⟨-, hx⟩⟩⟩⟩ := engine_step_cases ha h
  · exact absurd hr hne
  · exact ⟨_, _, _, _, _, _, _, rfl⟩
  · exact absurd ⟨hf, hw⟩ hh
  · exact retire_exec_engineFrame hx

end Sys2Proof.Machine
end

