-- ==== Sys2Proof/Proofs/Invariant.lean ====
section
/-! PROOFS. The invariant of the machine: every step keeps it, no step faults under it, and with a step limit every run ends
(R182, R183, R189, R256). -/

namespace Sys2Proof.Machine

/-! ### The tape and the input cursor (R40, R44, R62) -/

/-- The part of the invariant on the tape, the current cell and the input cursor. -/
structure TapeInv (s : State) : Prop where
  form : Memory.wf s.tape
  cellExists : CellExists s
  bounded : ∀ n, s.cfg.tapeCells = some n → ∀ c ∈ s.tape, c.1 < n
  cursor : s.inCursor ≤ s.input.length

section
variable {s : State} (h : TapeInv s)
include h

/-- The other registers may take any values. -/
theorem TapeInv.registers (ip : Nat) (out : List Byte) (st : Status) (n : Nat) :
    TapeInv { s with ip := ip, out := out, status := st, steps := n } :=
  ⟨h.form, h.cellExists, h.bounded, h.cursor⟩

/-- The data pointer may move to a cell that exists. -/
theorem TapeInv.moveTo {d : Nat} (hd : ∀ n, s.cfg.tapeCells = some n → d < n) : TapeInv (s.moveTo d) :=
  ⟨h.form, hd, h.bounded, h.cursor⟩

/-- The current cell may take any value. -/
theorem TapeInv.writeCell (v : Byte) : TapeInv (s.writeCell v) where
  form := Memory.wf_write h.form s.dp v
  cellExists := h.cellExists
  bounded n hn c hc := by
    obtain hdp | hold := Memory.mem_write hc
    · exact hdp ▸ h.cellExists n hn
    · exact h.bounded n hn c hold
  cursor := h.cursor

/-- An unread byte may be consumed. -/
theorem TapeInv.consume (hlt : s.inCursor < s.input.length) : TapeInv s.consume :=
  ⟨h.form, h.cellExists, h.bounded, hlt⟩

end

/-- A poll answers a byte only where one is unread. -/
theorem inCursor_lt_of_inPoll {s : State} {b : Byte} (h : s.inPoll = .byte b) : s.inCursor < s.input.length := by
  by_contra hge
  rw [State.inPoll, List.getElem?_eq_none (Nat.le_of_not_lt hge)] at h
  cases hcl : s.closed <;> simp [hcl] at h

/-- The data pointer moves left inside the tape. -/
theorem cellExists_left {s : State} (h : CellExists s) : ∀ n, s.cfg.tapeCells = some n → s.dp - 1 < n :=
  fun n hn => (Nat.sub_le _ _).trans_lt (h n hn)

/-- Every instruction keeps the tape's form and bounds, and the cursor within the source. -/
theorem exec_tapeInv {s s' : State} {t : Token} (h : TapeInv s) (hx : exec t.toInstr s = .next s') : TapeInv s' := by
  rcases exec_token_cases hx with hMoveRight | hMoveLeft | hArith | hOutput | hInput | hLoopOpen | hLoopClose | hEnd
  · obtain ⟨-, ⟨-, rfl⟩ | ⟨hnext, rfl⟩⟩ := hMoveRight
    · exact h.registers ..
    · exact (h.moveTo (atTapeEnd_false.1 hnext)).registers ..
  · obtain ⟨-, ⟨-, -, rfl⟩ | ⟨-, -, rfl⟩ | ⟨-, rfl⟩⟩ := hMoveLeft
    · exact h.registers ..
    · exact h.registers ..
    · exact (h.moveTo (cellExists_left h.cellExists)).registers ..
  · obtain ⟨-, -, v, rfl⟩ := hArith
    exact (h.writeCell v).registers ..
  · obtain ⟨-, -, rfl⟩ := hOutput
    exact h.registers ..
  · obtain ⟨-, ⟨-, b, hb, rfl⟩ | ⟨-, ⟨-, rfl⟩ | rfl | rfl⟩ | ⟨-, rfl⟩⟩ := hInput
    · exact ((h.writeCell b).consume (inCursor_lt_of_inPoll hb)).registers ..
    · exact (h.writeCell 0).registers ..
    all_goals exact h.registers ..
  · obtain ⟨-, -, ⟨-, j, -, rfl⟩ | ⟨-, rfl⟩⟩ := hLoopOpen <;> exact h.registers ..
  · obtain ⟨-, -, ⟨-, j, -, rfl⟩ | ⟨-, rfl⟩⟩ := hLoopClose <;> exact h.registers ..
  · obtain ⟨-, rfl⟩ := hEnd
    exact h.registers ..

/-! ### The instruction pointer (R189) -/

/-- Before the end of a program there is a next instruction. -/
theorem EndsOnce.succ_lt {p : List Token} (h : EndsOnce p) {i : Nat} {t : Token} (hi : p[i]? = some t)
    (ht : t ≠ .endOfProgram) : i + 1 < p.length := by
  obtain ⟨body, rfl, -⟩ := h
  have hlt : i < (body ++ [Token.endOfProgram]).length := (List.getElem?_eq_some_iff.1 hi).1
  have hne : i ≠ body.length := by
    rintro rfl
    exact ht (by simpa using hi.symm)
  simp only [List.length_append, List.length_singleton] at hlt ⊢
  omega

/-- An instruction after which the engine runs on leaves `ip` in the program. -/
theorem exec_ip_lt {s s' : State} {t : Token} (h : EngineInv s) (hf : Fetches s t) (hx : exec t.toInstr s = .next s')
    (hr : s'.status = .running) : s'.ip < s.prog.length := by
  cases exec_ends hx with
  | advances status ip =>
    rw [ip]
    refine h.program.succ_lt hf.fetched ?_
    rintro rfl
    cases hx
    cases hr
  | jumps status jump => exact Nat.lt_of_succ_lt (h.jumps.beforeEnd _ _ jump.2)
  | halts halted => simp [halted] at hr
  | raises e cause raised => simp [raised] at hr
  | holds waits same => exact same ▸ h.ipInProgram hf.running

/-! ### The ENGINE's step keeps the invariant -/

section
variable {s : State} (h : Inv s) (ha : s.active = .engine)
include h ha

/-- The invariant of the tape is part of the invariant of the machine. -/
theorem Inv.tapeInv : TapeInv s :=
  have he : EngineInv s := h.engine ha
  ⟨h.tape, he.cellExists, he.tapeBounded, he.cursor⟩

/-- What the engine writes keeps the invariant when the tape, `ip` and `steps` are right. -/
theorem Inv.of_engineFrame {s' : State} (hframe : EngineFrame s s') (htape : TapeInv s')
    (hip : s'.status = .running → s'.ip < s.prog.length)
    (hsteps : ∀ l, s.cfg.stepLimit = some l → s'.steps ≤ l) : Inv s' := by
  obtain ⟨ip, dp, tape, cur, out, n, st, rfl⟩ := hframe
  have he : EngineInv s := h.engine ha
  exact {
    h with
    tape := htape.form
    engine := fun _ => ⟨he.program, he.jumps, hip, htape.cellExists, htape.bounded, htape.cursor, hsteps⟩ }

/-- More of the input source keeps the invariant. -/
theorem Inv.withSource (extra : List Byte) (c : Bool) (arr : List Arrival) : Inv (s.withSource extra c arr) := by
  have he : EngineInv s := h.engine ha
  have hcursor : s.inCursor ≤ (s.input ++ extra).length := he.cursor.trans (by simp)
  exact { h with engine := fun _ => { he with cursor := hcursor } }

end

/-- The end of an operation leaves every agent idle. -/
theorem inv_finish {s : State} (hcfg : s.cfg.wf = true) (hc : s.carrier.wf = true) (ht : Memory.wf s.tape)
    (r : Response) : Inv (s.finish r) where
  config := hcfg
  carrier := hc
  tape := ht
  engine := nofun
  encoderStart := nofun
  encoderIdle _ := rfl
  decoderStart := nofun
  decoderIdle _ := rfl
  loaderStart := nofun
  loaderIdle _ := rfl

/-- Below the limit there is room for one more step. -/
theorem BelowLimit.steps_le {s : State} (h : BelowLimit s) {n : Nat} (hn : n ≤ s.steps + 1) :
    ∀ l, s.cfg.stepLimit = some l → n ≤ l :=
  fun l hl => hn.trans (h l hl)

/-- An instruction and its count keep the invariant. -/
theorem inv_retire_exec {s s' : State} {t : Token} (h : Inv s) (hf : Fetches s t)
    (hx : retire (exec t.toInstr s) = .next s') : Inv s' := by
  have hframe : EngineFrame s s' := retire_exec_engineFrame hx
  obtain ⟨s₁, n, hx₁, rfl, hn⟩ := retire_steps hx
  have hsteps : s₁.steps = s.steps := by
    obtain ⟨⟨_, _, _, _, _, _, rfl⟩, -⟩ := exec_withinFrame hx₁
    rfl
  have htape : TapeInv s₁ := exec_tapeInv (h.tapeInv hf.active) hx₁
  have hip : s₁.status = .running → s₁.ip < s.prog.length := exec_ip_lt (h.engine hf.active) hf hx₁
  exact h.of_engineFrame hf.active hframe (htape.registers ..) hip (hf.below.steps_le (hsteps ▸ hn))

/-- The ENGINE's step: the return, the step limit, a hold, an instruction. -/
theorem step_engine_inv {s s' : State} (h : Inv s) (ha : s.active = .engine) (hs : step s = .next s') : Inv s' := by
  obtain ⟨-, ⟨-, rfl⟩ | ⟨-, ⟨-, rfl⟩ | ⟨t, hf, ⟨-, -, rfl⟩ | ⟨-, hx⟩⟩⟩⟩ := engine_step_cases ha hs
  · exact inv_finish h.config h.carrier h.tape _
  · exact h.of_engineFrame ha ⟨_, _, _, _, _, _, _, rfl⟩ ((h.tapeInv ha).registers ..) nofun (h.engine ha).withinLimit
  · obtain ⟨extra, c, arr, harr⟩ := hostArrival_withSource s
    exact harr ▸ h.withSource ha extra c arr
  · exact inv_retire_exec h hf hx

/-! ### The other agents' steps keep the invariant -/

/-- An operation starts from an idle machine, so one working state is at its start and the others are idle. -/
theorem inv_started {s : State} (h : Inv s) (ha : s.active = .host) {op : Operation} (rest : List Operation)
    (hcfg : op.config.wf = true) (hc : (op.carrierFrom s.carrier).wf = true) :
    Inv ({ s with pending := rest }.started op) := by
  have hidle : ∀ {a : Agent}, a ≠ .host → s.active ≠ a := fun hne he => hne (he.symm.trans ha)
  have henc : s.encoder = EncoderWork.idle := h.encoderIdle (hidle nofun)
  have hdec : s.decoder = DecoderWork.idle := h.decoderIdle (hidle nofun)
  have hload : s.loader = LoaderWork.idle := h.loaderIdle (hidle nofun)
  cases op with
  | inject cfg ts c =>
    exact {
      config := hcfg
      carrier := hc
      tape := h.tape
      engine := nofun
      encoderStart := fun _ => ⟨ts, rfl⟩
      encoderIdle := fun hne => absurd rfl hne
      decoderStart := nofun
      decoderIdle := fun _ => hdec
      loaderStart := nofun
      loaderIdle := fun _ => hload }
  | run cfg c inp cl arr =>
    exact {
      config := hcfg
      carrier := hc
      tape := Memory.wf_nil
      engine := nofun
      encoderStart := nofun
      encoderIdle := fun _ => henc
      decoderStart := fun _ => rfl
      decoderIdle := fun hne => absurd rfl hne
      loaderStart := nofun
      loaderIdle := fun _ => hload }

/-- Encode writes pixels into the grid and keeps its size. -/
theorem encode_wf {cfg : Config} {c c' : Carrier} {ts : List Token} (h : encode cfg c ts = .ok c')
    (hc : c.wf = true) : c'.wf = true := by
  obtain ⟨hw, hh, hlen⟩ := encode_grid h
  simpa [Carrier.wf, hw, hh, hlen] using hc

/-- The ENCODER's transaction ends the operation, on success with the encoded carrier. -/
theorem inv_runEncoder {s : State} (h : Inv s) (ha : s.active = .encoder) : Inv (runEncoder s) := by
  obtain ⟨ts, hts⟩ := h.encoderStart ha
  have hencode : encodeFrom s.cfg s.carrier s.encoder = encode s.cfg s.carrier ts := by rw [hts, encode]
  rw [runEncoder, hencode]
  cases hres : encode s.cfg s.carrier ts with
  | ok c' => exact inv_finish (s := { s with carrier := c' }) h.config (encode_wf hres h.carrier) h.tape _
  | error e => exact inv_finish h.config h.carrier h.tape _

/-- The DECODER's transaction ends the operation, or hands a token sequence with one end to the LOADER. -/
theorem inv_runDecoder {s : State} (h : Inv s) (ha : s.active = .decoder) : Inv (runDecoder s) := by
  have henc : s.encoder = EncoderWork.idle := h.encoderIdle (by simp [ha])
  rw [runDecoder, h.decoderStart ha]
  cases hres : decode s.cfg s.carrier with
  | ok toks =>
    obtain ⟨hends, -⟩ := follows_origin_iff.1 (follows_of_decode hres)
    rw [decodeFrom_start_ok hres]
    exact {
      config := h.config
      carrier := h.carrier
      tape := h.tape
      engine := nofun
      encoderStart := nofun
      encoderIdle := fun _ => henc
      decoderStart := nofun
      decoderIdle := fun _ => rfl
      loaderStart := fun _ => ⟨toks, hends, rfl⟩
      loaderIdle := fun hne => absurd rfl hne }
  | error e =>
    obtain ⟨r, k, hfail, -⟩ := decodeFrom_start_err hres
    rw [hfail]
    exact inv_finish h.config h.carrier h.tape _

/-- The reset engine of a loaded program meets its invariant: cell 0 exists on every tape. -/
theorem engineInv_reset {s : State} (hcfg : s.cfg.wf = true) {toks prog : List Token} {jt : JumpTable}
    (hl : load toks = .ok (prog, jt)) :
    EngineInv { s.resetEngine prog jt with loader := LoaderWork.idle, active := .engine } := by
  obtain ⟨rfl, hjumps⟩ := loadBuildsTheRightJumpTable toks prog jt hl
  have hends : EndsOnce (normalise toks) := normalise_endsOnce toks
  have hcells : s.cfg.tapeCells ≠ some 0 := of_decide_eq_true (Bool.and_eq_true_iff.1 hcfg).2
  have hlen : 0 < (normalise toks).length := by
    obtain ⟨body, hbody, -⟩ := hends
    simp [hbody]
  exact {
    program := hends
    jumps := hjumps
    ipInProgram := fun _ => hlen
    cellExists := fun n hn => Nat.pos_of_ne_zero fun h0 => hcells (h0 ▸ hn)
    tapeBounded := nofun
    cursor := Nat.zero_le _
    withinLimit := fun _ _ => Nat.zero_le _ }

/-- The LOADER's transaction ends the operation, or resets the ENGINE for a loaded program. -/
theorem inv_runLoader {s : State} (h : Inv s) (ha : s.active = .loader) : Inv (runLoader s) := by
  obtain ⟨toks, -, htoks⟩ := h.loaderStart ha
  have henc : s.encoder = EncoderWork.idle := h.encoderIdle (by simp [ha])
  have hdec : s.decoder = DecoderWork.idle := h.decoderIdle (by simp [ha])
  have hload : loadFrom s.loader = load toks := by rw [htoks]; rfl
  rw [runLoader, hload]
  cases hres : load toks with
  | ok r =>
    obtain ⟨prog, jt⟩ := r
    exact {
      config := h.config
      carrier := h.carrier
      tape := Memory.wf_nil
      engine := fun _ => engineInv_reset h.config hres
      encoderStart := nofun
      encoderIdle := fun _ => henc
      decoderStart := nofun
      decoderIdle := fun _ => hdec
      loaderStart := nofun
      loaderIdle := fun _ => rfl }
  | error e => exact inv_finish h.config h.carrier h.tape _

/-- Settles O58: the step of each agent. -/
theorem everyStepKeepsTheInvariant : Obligations.EveryStepKeepsTheInvariant := by
  intro s t h hs
  cases ha : s.active with
  | host =>
    obtain rfl | ⟨op, rest, hcfg, hc, rfl⟩ := step_host_next ha hs
    · exact h
    · exact inv_started h ha rest hcfg hc
  | encoder => exact step_encoder_next ha hs ▸ inv_runEncoder h ha
  | decoder => exact step_decoder_next ha hs ▸ inv_runDecoder h ha
  | loader => exact step_loader_next ha hs ▸ inv_runLoader h ha
  | engine => exact step_engine_inv h ha hs

/-! ### No step faults (R183, R189, R256) -/

/-- On a cell that exists, and with a partner, a conditional jump has an effect. -/
theorem branchIf_total {s : State} (hc : s.cellInRange = true) {j : Nat} (hj : JumpTable.target s.jt s.ip = some j)
    (f : Byte → Bool) : ∃ s', s.branchIf f = .next s' := by
  cases hf : f s.cell with
  | true => exact ⟨s.jump j, by rw [branch_taken hc hf, State.jumpToPartner, hj]⟩
  | false => exact ⟨s.advance, by rw [branch_eq, onCell_true hc, hf, if_neg Bool.false_ne_true]⟩

/-- Input has an effect on a cell that exists: it reads a byte, finds the source exhausted, or holds. -/
theorem exec_input_total {s : State} (hc : s.cellInRange = true) : ∃ s', exec .input s = .next s' := by
  rw [exec_input]
  cases s.inPoll with
  | byte b => exact ⟨_, onCell_true hc⟩
  | exhausted =>
    rw [State.inputExhausted]
    cases s.cfg.eofPolicy with
    | zero => exact ⟨_, onCell_true hc⟩
    | unchanged => exact ⟨_, rfl⟩
    | terminate => exact ⟨_, rfl⟩
  | notYet => exact ⟨_, rfl⟩

/-- A bracket of a program has a partner in the right jump table. -/
theorem JumpTableRight.target_of_bracket {p : List Token} {jt : JumpTable} (h : JumpTableRight p jt) {i : Nat}
    (hi : IsBracketAt p i) : ∃ j, JumpTable.target jt i = some j :=
  Option.isSome_iff_exists.1 ((h.defined i).2 hi)

/-- The meaning of the instruction at `ip` faults in no state of a run. -/
theorem exec_total {s : State} {t : Token} (h : EngineInv s) (hi : s.prog[s.ip]? = some t) :
    ∃ s', exec t.toInstr s = .next s' := by
  have hc : s.cellInRange = true := cellInRange_of h.cellExists
  cases t with
  | moveRight =>
    simp only [Token.toInstr, exec_moveRight]
    split_ifs <;> exact ⟨_, rfl⟩
  | moveLeft =>
    simp only [Token.toInstr, exec_moveLeft]
    split_ifs
    · cases s.cfg.underflowPolicy <;> exact ⟨_, rfl⟩
    · exact ⟨_, rfl⟩
  | increment => exact ⟨_, (exec_increment s).trans (onCell_true hc)⟩
  | decrement => exact ⟨_, (exec_decrement s).trans (onCell_true hc)⟩
  | output => exact ⟨_, (exec_output s).trans (onCell_true hc)⟩
  | input => exact exec_input_total hc
  | loopOpen =>
    obtain ⟨j, hj⟩ := h.jumps.target_of_bracket (.inl hi)
    exact branchIf_total hc hj fun v => cellIsZero v
  | loopClose =>
    obtain ⟨j, hj⟩ := h.jumps.target_of_bracket (.inr hi)
    exact branchIf_total hc hj fun v => !cellIsZero v
  | endOfProgram => exact ⟨_, rfl⟩

/-- A next state of the meaning is a next state of the step. -/
theorem retire_total (s : State) : ∃ s', retire (.next s) = .next s' := by
  rw [retire]
  cases s.status <;> exact ⟨_, rfl⟩

/-- The fetch of a running engine below its limit cannot fail (R183). -/
theorem exists_fetches {s : State} (h : Inv s) (ha : s.active = .engine) (hr : s.status = .running)
    (hb : BelowLimit s) : ∃ t, Fetches s t :=
  ⟨_, ha, h.config, hr, hb, List.getElem?_eq_getElem ((h.engine ha).ipInProgram hr)⟩

/-- The ENGINE's step answers a next state. -/
theorem step_engine_total {s : State} (h : Inv s) (ha : s.active = .engine) : ∃ s', step s = .next s' := by
  by_cases hr : s.status = .running
  · cases hl : s.limitReached with
    | true => exact ⟨_, step_engine_limit ha h.config hr hl⟩
    | false =>
      obtain ⟨t, hf⟩ := exists_fetches h ha hr (limitReached_false.1 hl)
      obtain ⟨s₁, hx⟩ := exec_total (h.engine ha) hf.fetched
      rw [step_engine hf, hx]
      split_ifs
      · exact ⟨_, rfl⟩
      · exact retire_total s₁
  · exact ⟨_, step_engine_ended ha h.config hr⟩

/-- An active agent's step answers a next state. -/
theorem step_active_total {s : State} (h : Inv s) (ha : s.active ≠ .host) : ∃ s', step s = .next s' := by
  cases hact : s.active with
  | host => exact absurd hact ha
  | encoder => exact ⟨_, step_encoder hact h.config⟩
  | decoder => exact ⟨_, step_decoder hact h.config⟩
  | loader => exact ⟨_, step_loader hact h.config⟩
  | engine => exact step_engine_total h hact

/-- A request with an ill-formed configuration is one of the two operations. -/
theorem Operation.cases_of_illFormed {op : Operation} (h : op.config.wf = false) :
    (∃ cfg ts c, op = .inject cfg ts c ∧ cfg.wf = false) ∨
    (∃ cfg c inp cl arr, op = .run cfg c inp cl arr ∧ cfg.wf = false) := by
  cases op with
  | inject cfg ts c => exact .inl ⟨cfg, ts, c, rfl, h⟩
  | run cfg c inp cl arr => exact .inr ⟨cfg, c, inp, cl, arr, rfl, h⟩

/-- Where the machine's own buffer is well formed, a malformed carrier is one the request brings. -/
theorem Operation.cases_of_malformed {op : Operation} {held : Carrier} (hheld : held.wf = true)
    (h : (op.carrierFrom held).wf = false) :
    (∃ cfg ts c, op = .inject cfg ts (some c) ∧ c.wf = false) ∨
    (∃ cfg c inp cl arr, op = .run cfg (some c) inp cl arr ∧ c.wf = false) := by
  have hbrings : ∀ {c : Option Carrier}, (c.getD held).wf = false → ∃ c', c = some c' ∧ c'.wf = false := by
    rintro (_ | c) hc
    · cases hheld.symm.trans hc
    · exact ⟨c, rfl, hc⟩
  cases op with
  | inject cfg ts c =>
    obtain ⟨c', rfl, hc'⟩ := hbrings h
    exact .inl ⟨cfg, ts, c', rfl, hc'⟩
  | run cfg c inp cl arr =>
    obtain ⟨c', rfl, hc'⟩ := hbrings h
    exact .inr ⟨cfg, c', inp, cl, arr, rfl, hc'⟩

/-- Everything the HOST's step can do. -/
theorem step_host_cases {s : State} (ha : s.active = .host) :
    (∃ s', step s = .next s') ∨ ∃ op rest, s.pending = op :: rest ∧
      ((op.config.wf = false ∧ step s = .refused .illFormedConfig) ∨
       ((op.carrierFrom s.carrier).wf = false ∧ step s = .refused .malformedCarrier)) := by
  cases hp : s.pending with
  | nil => exact .inl ⟨s, step_host_idle ha hp⟩
  | cons op rest =>
    rw [step_host_request ha hp]
    obtain hcfg | hc | ⟨-, -, hnext⟩ := begin_cases { s with pending := rest } op
    · exact .inr ⟨op, rest, rfl, .inl hcfg⟩
    · exact .inr ⟨op, rest, rfl, .inr hc⟩
    · exact .inl ⟨_, hnext⟩

/-- Settles O59: an active agent's step answers a next state, and the HOST's step is refused by its two checks alone. -/
theorem noStepFaultsUnderTheInvariant : Obligations.NoStepFaultsUnderTheInvariant := by
  intro s h
  by_cases ha : s.active = .host
  · obtain ⟨s', hs⟩ | ⟨op, rest, hp, ⟨hcfg, hs⟩ | ⟨hc, hs⟩⟩ := step_host_cases ha <;> rw [hs]
    · exact ⟨nofun, nofun⟩
    · refine ⟨nofun, fun r hr => ?_⟩
      cases hr
      exact ⟨ha, .inl ⟨rfl, op, rest, hp, Operation.cases_of_illFormed hcfg⟩⟩
    · refine ⟨nofun, fun r hr => ?_⟩
      cases hr
      exact ⟨ha, .inr ⟨rfl, op, rest, hp, Operation.cases_of_malformed h.carrier hc⟩⟩
  · obtain ⟨s', hs⟩ := step_active_total h ha
    rw [hs]
    exact ⟨nofun, nofun⟩

/-! ### The step limit ends every run (R182, R187, R290) -/

/-- A running engine with a closed source takes a step that ends the run or counts. -/
theorem running_step_progress {s : State} (h : Inv s) (ha : s.active = .engine) (hr : s.status = .running)
    (hcl : s.closed = true) : ∃ s', step s = .next s' ∧ EngineFrame s s' ∧
      (s'.status ≠ .running ∨ s'.steps = s.steps + 1) := by
  have hh : ¬ SourceWaits s := fun hw => by simp [hw.2] at hcl
  obtain ⟨s', hs⟩ := step_engine_total h ha
  refine ⟨s', hs, running_step_engineFrame ha hr (fun hw => hh hw.2) hs, ?_⟩
  obtain ⟨-, ⟨hne, -⟩ | ⟨-, ⟨-, rfl⟩ | ⟨t, hf, ⟨-, hw, -⟩ | ⟨-, hx⟩⟩⟩⟩ := engine_step_cases ha hs
  · exact absurd hr hne
  · exact .inl (by simp)
  · exact absurd hw hh
  · obtain ⟨s₁, hx₁, ⟨⟨e, he⟩, rfl⟩ | ⟨-, rfl⟩⟩ := retire_cases hx
    · exact .inl (by simp [he])
    · obtain ⟨⟨_, _, _, _, _, _, rfl⟩, -⟩ := exec_withinFrame hx₁
      exact .inr rfl

/-- Settles O60, by induction on the instructions that the limit leaves: a step that does not end the run uses one of
them up, and under the invariant `steps` stays within the limit. -/
theorem stepLimitEndsEveryRun : Obligations.StepLimitEndsEveryRun := by
  intro s l h ha hr hcl hl
  induction hk : l - s.steps using Nat.strong_induction_on generalizing s with
  | _ k ih =>
    obtain ⟨s', hs, hframe, hprog⟩ := running_step_progress h ha hr hcl
    obtain ⟨hcfg', hact, hcl', -, -⟩ := hframe.kept
    have hinv : Inv s' := everyStepKeepsTheInvariant s s' h hs
    have hwithin : s'.steps ≤ l := (hinv.engine (hact.trans ha)).withinLimit l (hcfg' ▸ hl)
    by_cases hr' : s'.status = .running
    · have hcount : s'.steps = s.steps + 1 := hprog.resolve_left (not_not.2 hr')
      obtain ⟨n, t, hn, hrun, ht⟩ :=
        ih (l - s'.steps) (by omega) s' hinv (hact.trans ha) hr' (hcl'.trans hcl) (hcfg' ▸ hl) rfl
      exact ⟨n + 1, t, by omega, (run_succ hs n).trans hrun, ht⟩
    · exact ⟨1, s', by omega, run_succ hs 0, hact.trans ha, hr', hwithin⟩

end Sys2Proof.Machine
end

