-- ==== Sys2Proof/Proofs/Arrivals.lean ====
section
/-! PROOFS. The time at which bytes and the closing of the source arrive does not change what a run computes (R188, R190). -/

namespace Sys2Proof.Machine

/-! ### A step with more of the source there (R190) -/

/-- The step counter does not look at the input source. -/
theorem retire_withSource {r : Result} {s' : State} {extra : List Byte} {c : Bool} {arr : List Arrival}
    (h : retire r = .next s') : ∃ s₁, r = .next s₁ ∧
      retire (.next (s₁.withSource extra c arr)) = .next (s'.withSource extra c arr) := by
  obtain ⟨s₁, hr, ⟨⟨e, he⟩, rfl⟩ | ⟨hne, rfl⟩⟩ := retire_cases h
  · exact ⟨s', hr, retire_faulted he⟩
  · exact ⟨s₁, hr, retire_next hne⟩

/-- A step of the ENGINE that does not hold computes the same with more of the source there. -/
theorem step_withSource {s s' : State} {extra : List Byte} {c : Bool} {arr : List Arrival} (ha : s.active = .engine)
    (hc : s.closed = true → extra = [] ∧ c = true) (hh : ¬(Fetches s .input ∧ SourceWaits s))
    (h : step s = .next s') : step (s.withSource extra c arr) = .next (s'.withSource extra c arr) := by
  obtain ⟨hcfg, ⟨hr, rfl⟩ | ⟨hr, ⟨hl, rfl⟩ | ⟨t, hf, ⟨rfl, hw, -⟩ | ⟨hnot, hx⟩⟩⟩⟩ := engine_step_cases ha h
  · exact step_engine_ended (s := s.withSource extra c arr) ha hcfg hr
  · exact step_engine_limit (s := s.withSource extra c arr) ha hcfg hr hl
  · exact absurd ⟨hf, hw⟩ hh
  · have hf' : Fetches (s.withSource extra c arr) t := ⟨ha, hcfg, hr, hf.below, hf.fetched⟩
    have hnot' : ¬(t = .input ∧ SourceWaits (s.withSource extra c arr)) := by
      rintro ⟨ht, hw⟩
      have hpoll : s.inPoll ≠ .notYet := fun hp => hnot ⟨ht, poll_notYet.1 hp⟩
      exact hpoll ((inPoll_withSource hpoll hc).symm.trans (poll_notYet.2 hw))
    obtain ⟨s₁, hx₁, hretire⟩ := retire_withSource hx
    rw [step_engine_exec hf' hnot', exec_withSource hc hnot hx₁, hretire]

/-- A step of the ENGINE that does not hold leaves the input source and its schedule. -/
theorem engine_step_source {s s' : State} (ha : s.active = .engine) (hh : ¬(Fetches s .input ∧ SourceWaits s))
    (h : step s = .next s') : s'.closed = s.closed ∧ s'.arrivals = s.arrivals := by
  by_cases hr : s.status = .running
  · obtain ⟨-, -, hcl, harr, -⟩ := (running_step_engineFrame ha hr hh h).kept
    exact ⟨hcl, harr⟩
  · cases h.symm.trans (step_engine_ended ha (config_of_step_next (by simp [ha]) h) hr)
    exact ⟨rfl, rfl⟩

/-- A byte appended before a step that does not hold may as well be appended after it, and so may the closing be. -/
theorem step_arrival {s s' : State} (ha : s.active = .engine) (ho : s.closed = false)
    (hh : ¬(Fetches s .input ∧ SourceWaits s)) (h : step s = .next s') :
    (∀ b, step { s with input := s.input ++ [b] } = .next { s' with input := s'.input ++ [b] }) ∧
    step { s with closed := true } = .next { s' with closed := true } := by
  obtain ⟨hcl, harr⟩ := engine_step_source ha hh h
  have hwith : ∀ extra c, step (s.withSource extra c s.arrivals) = .next (s'.withSource extra c s'.arrivals) :=
    fun extra c => harr ▸ step_withSource ha (by simp [ho]) hh h
  refine ⟨fun b => ?_, ?_⟩
  · have hbyte := hwith [b] s.closed
    rw [← hcl] at hbyte
    simpa [State.withSource, hcl] using hbyte
  · simpa [State.withSource] using hwith [] true

/-! ### A run whose schedule has landed (R190) -/

/-- Landing a schedule adds the same to every state with the same schedule and the same source. -/
theorem landed_eq_withSource (s : State) : ∃ extra c, (s.closed = true → extra = [] ∧ c = true) ∧
    ∀ u : State, u.closed = s.closed → u.arrivals = s.arrivals → u.landed = u.withSource extra c [] := by
  obtain ⟨extra, c, hc, hland⟩ := land_eq s.arrivals s.closed
  refine ⟨extra, c, hc, fun u hcl harr => ?_⟩
  rw [State.landed, harr]
  exact hland { u with arrivals := [] } hcl

/-- A step of the ENGINE that does not hold computes the same with the whole schedule landed. -/
theorem step_landed {s s' : State} (ha : s.active = .engine) (hh : ¬(Fetches s .input ∧ SourceWaits s))
    (h : step s = .next s') : step s.landed = .next s'.landed := by
  obtain ⟨extra, c, hc, hland⟩ := landed_eq_withSource s
  obtain ⟨hcl, harr⟩ := engine_step_source ha hh h
  rw [hland s rfl rfl, hland s' hcl harr]
  exact step_withSource ha hc hh h

/-- The HOST's action is neither the end of the operation nor an answer. -/
theorem hostArrival_kept (s : State) : s.hostArrival.active = s.active ∧ s.hostArrival.responses = s.responses := by
  obtain ⟨extra, c, arr, harr⟩ := hostArrival_withSource s
  rw [harr]
  exact ⟨rfl, rfl⟩

/-- Everything a step of the ENGINE means for the run whose schedule has landed: the return of the run, a hold that the
other run does not have, or the same step. -/
theorem engine_step_landed {s s' : State} (ha : s.active = .engine) (h : step s = .next s') :
    s'.responses = s.responses ++ [.ran s.status s.out] ∨
    (s'.active = .engine ∧ s'.responses = s.responses ∧
      (s'.landed = s.landed ∨ step s.landed = .next s'.landed)) := by
  by_cases hr : s.status = .running
  · right
    by_cases hh : Fetches s .input ∧ SourceWaits s
    · cases h.symm.trans (step_engine_holds hh.1 hh.2)
      obtain ⟨hact, hresp⟩ := hostArrival_kept s
      exact ⟨hact.trans ha, hresp, .inl (landed_hostArrival s)⟩
    · obtain ⟨-, hact, -, -, hresp⟩ := (running_step_engineFrame ha hr hh h).kept
      exact ⟨hact.trans ha, hresp, .inr (step_landed ha hh h)⟩
  · left
    cases h.symm.trans (step_engine_ended ha (config_of_step_next (by simp [ha]) h) hr)
    rfl

/-! ### No answer is taken back (log 5) -/

/-- A started operation has not answered. -/
theorem started_responses (s : State) (op : Operation) : (s.started op).responses = s.responses := by
  cases op <;> rfl

/-- The ENCODER's transaction answers. -/
theorem runEncoder_responses (s : State) : s.responses <+: (runEncoder s).responses := by
  unfold runEncoder
  split <;> exact List.prefix_append ..

/-- The DECODER's transaction answers, or goes on. -/
theorem runDecoder_responses (s : State) : s.responses <+: (runDecoder s).responses := by
  unfold runDecoder
  cases decodeFrom s.cfg s.carrier s.decoder with
  | more w => exact List.prefix_rfl
  | done toks => exact List.prefix_rfl
  | failed r k => exact List.prefix_append ..

/-- The LOADER's transaction answers, or goes on. -/
theorem runLoader_responses (s : State) : s.responses <+: (runLoader s).responses := by
  unfold runLoader
  split
  · exact List.prefix_rfl
  · exact List.prefix_append ..

/-- Every step keeps the answers there are. -/
theorem step_responses {s s' : State} (h : step s = .next s') : s.responses <+: s'.responses := by
  cases ha : s.active with
  | host =>
    obtain rfl | ⟨op, rest, -, -, rfl⟩ := step_host_next ha h
    · exact List.prefix_rfl
    · rw [started_responses]
  | encoder => exact step_encoder_next ha h ▸ runEncoder_responses s
  | decoder => exact step_decoder_next ha h ▸ runDecoder_responses s
  | loader => exact step_loader_next ha h ▸ runLoader_responses s
  | engine =>
    obtain hret | ⟨-, hsame, -⟩ := engine_step_landed ha h
    · exact hret ▸ List.prefix_append ..
    · rw [hsame]

/-- Every run keeps the answers there are. -/
theorem run_responses {s t : State} {n : Nat} (h : Host.Core.run core n s = .next t) :
    s.responses <+: t.responses := by
  induction n generalizing s with
  | zero =>
    cases h
    exact List.prefix_rfl
  | succ n ih =>
    obtain ⟨s', hs, hrun⟩ := run_succ_next h
    exact (step_responses hs).trans (ih hrun)

/-- A run that has not answered has not returned, so each of its steps is a hold or a step of the landed run. -/
theorem run_landed {s t : State} {n : Nat} (ha : s.active = .engine) (h : Host.Core.run core n s = .next t)
    (hresp : t.responses = s.responses) : ∃ m, m ≤ n ∧ Host.Core.run core m s.landed = .next t.landed := by
  induction n generalizing s with
  | zero =>
    cases h
    exact ⟨0, le_rfl, rfl⟩
  | succ n ih =>
    obtain ⟨s', hs, hrun⟩ := run_succ_next h
    obtain hret | ⟨ha', hresp', hland⟩ := engine_step_landed ha hs
    · have hlen := (run_responses hrun).length_le
      simp [hret, hresp] at hlen
    · obtain ⟨m, hm, hrun'⟩ := ih ha' hrun (hresp.trans hresp'.symm)
      obtain hsame | hstep := hland
      · exact ⟨m, Nat.le_succ_of_le hm, hsame ▸ hrun'⟩
      · exact ⟨m + 1, Nat.succ_le_succ hm, (run_succ hstep m).trans hrun'⟩

/-- Settles O38: the step with more of the source there, and the induction over the run. -/
theorem arrivalTimeDoesNotChangeTheRun : Obligations.ArrivalTimeDoesNotChangeTheRun :=
  ⟨fun _ _ ha ho hh h => step_arrival ha ho (fun hheld => hh ⟨hheld.1.fetched, hheld.2⟩) h,
    fun _ _ _ ha h hresp => run_landed ha h hresp⟩

end Sys2Proof.Machine
end

