-- ==== Sys2Proof/Proofs/Pointer.lean ====
section
/-! The pointer instructions MoveRight and MoveLeft (43_pointer.md). -/

namespace Sys2Proof.Machine

/-- The end of a bounded tape: `atTapeEnd_false` read for the last cell and those past it. -/
theorem atTapeEnd_of_bounded {s : State} {n : Nat} (hcells : s.cfg.tapeCells = some n) (hend : n ≤ s.dp + 1) :
    s.atTapeEnd = true := by
  rw [← Bool.not_eq_false, atTapeEnd_false]
  exact fun hbelow => absurd (hbelow n hcells) (Nat.not_lt.2 hend)

/-- Settles O42: below the end of the tape the pointer moves, at its end the overflow is raised. -/
theorem moveRightMovesOneCell : Obligations.MoveRightMovesOneCell := by
  refine fun s => ⟨fun hbelow => ?_, fun n hcells hend => ?_⟩
  · have hinside : s.atTapeEnd = false := atTapeEnd_false.2 hbelow
    exact (exec_moveRight s).trans (if_neg (Bool.eq_false_iff.1 hinside))
  · exact (exec_moveRight s).trans (if_pos (atTapeEnd_of_bounded hcells hend))

/-- Settles O43: the move from a cell above 0, then the two policies at cell 0. -/
theorem moveLeftMovesOneCellOrUnderflows : Obligations.MoveLeftMovesOneCellOrUnderflows := by
  refine fun s => ⟨fun hpos => ?_, fun hzero hfault => ?_, fun hzero hclamp => ?_⟩
  · exact (exec_moveLeft s).trans (if_neg hpos.ne')
  · rw [exec_moveLeft, if_pos hzero, hfault]
    rfl
  · rw [exec_moveLeft, if_pos hzero, hclamp]
    rfl

end Sys2Proof.Machine
end

