-- ==== Sys2Proof/Proofs/CellArith.lean ====
section
/-! The arithmetic instructions Increment and Decrement (44_cell_arith.md). -/

namespace Sys2Proof.Machine

/-- An update of the current cell (R212): the cell takes the new value, and no other cell and no register but `ip` changes. -/
theorem onCell_update {s : State} (hcell : CellExists s) (f : Byte → Byte) :
    ∃ m, (s.onCell fun v => .next (s.writeCell (f v)).advance) = .next { s with tape := m, ip := s.ip + 1 } ∧
      Memory.read m s.dp = f (Memory.read s.tape s.dp) ∧
      ∀ a, a ≠ s.dp → Memory.read m a = Memory.read s.tape a :=
  ⟨Memory.write s.tape s.dp (f s.cell), onCell_true (cellInRange_of hcell), Memory.read_write_self ..,
    fun _ hother => Memory.read_write_ne _ _ hother⟩

/-- R211's subtraction over the integers: `%` is never negative, so 0 goes to 255. -/
theorem toNat_sub_one (v : Byte) : ((v - 1).toNat : Int) = ((v.toNat : Int) - 1) % 256 := by
  have hsub : (v - 1).toNat = (255 + v.toNat) % 256 := BitVec.toNat_sub v 1
  omega

/-- Settles O44: the update of the current cell by the 8-bit addition. -/
theorem incrementAddsOneModulo256 : Obligations.IncrementAddsOneModulo256 := by
  intro s hcell
  obtain ⟨m, hexec, hself, hother⟩ := onCell_update hcell (· + 1)
  refine ⟨m, (exec_increment s).trans hexec, ?_, hother⟩
  rw [hself]
  exact BitVec.toNat_add _ 1

/-- Settles O45: the update of the current cell by the 8-bit subtraction. -/
theorem decrementSubtractsOneModulo256 : Obligations.DecrementSubtractsOneModulo256 := by
  intro s hcell
  obtain ⟨m, hexec, hself, hother⟩ := onCell_update hcell (· - 1)
  refine ⟨m, (exec_decrement s).trans hexec, ?_, hother⟩
  rw [hself]
  exact toNat_sub_one _

end Sys2Proof.Machine
end

