-- ==== Sys2Proof/Proofs/InputOutput.lean ====
section
/-! The input and output instructions Output and Input (45_io.md). -/

namespace Sys2Proof.Machine

/-- Settles O46: on a cell that exists, Output is the push of its value. -/
theorem outputAppendsTheCell : Obligations.OutputAppendsTheCell :=
  fun s hcell => (exec_output s).trans (onCell_true (cellInRange_of hcell))

/-! ### The three answers of the poll (R221) -/

/-- A closed source with nothing left to read is exhausted. -/
theorem inPoll_exhausted {s : State} (hend : s.input.length ≤ s.inCursor) (hclosed : s.closed = true) :
    s.inPoll = .exhausted := by
  rw [State.inPoll, List.getElem?_eq_none hend, hclosed]
  rfl

/-- An Input that finds an unread byte, on a cell that exists, stores and consumes it. -/
theorem exec_input_byte {s : State} {b : Byte} (hcell : CellExists s) (hb : s.input[s.inCursor]? = some b) :
    exec .input s = .next ((s.writeCell b).consume).advance := by
  obtain ⟨hlt, rfl⟩ := List.getElem?_eq_some_iff.1 hb
  rw [exec_input, inPoll_byte hlt]
  exact onCell_true (cellInRange_of hcell)

/-- An Input on an exhausted source follows `EOF_POLICY`. -/
theorem exec_input_exhausted {s : State} (hend : s.input.length ≤ s.inCursor) (hclosed : s.closed = true) :
    exec .input s = s.inputExhausted := by
  rw [exec_input, inPoll_exhausted hend hclosed]

/-- Settles O47, by the three answers of the poll and, on an exhausted source, the three policies: the byte and the 0 of
`Zero` are writes to the current cell, and the rest leaves the tape. -/
theorem inputReadsOneByteOrFollowsThePolicy : Obligations.InputReadsOneByteOrFollowsThePolicy := by
  refine fun s => ⟨fun b hcell hb => ?_, fun hend hclosed => ?_, exec_input_holds⟩
  · exact ⟨Memory.write s.tape s.dp b, exec_input_byte hcell hb, Memory.read_write_self ..,
      fun _ hother => Memory.read_write_ne _ _ hother⟩
  · rw [exec_input_exhausted hend hclosed, State.inputExhausted]
    refine ⟨fun hzero hcell => ?_, fun hunchanged => ?_, fun hterminate => ?_⟩
    · rw [hzero]
      exact onCell_update hcell fun _ => 0
    · rw [hunchanged]
      rfl
    · rw [hterminate]
      rfl

end Sys2Proof.Machine
end

