-- ==== Sys2Proof/Proofs/Control.lean ====
section
/-! The control-flow instructions LoopOpen, LoopClose and EndOfProgram, and the loops they make (46_control.md). -/

namespace Sys2Proof.Machine

/-! ### The brackets and the end of the program (R230 to R232) -/

/-- On a cell that exists, a conditional jump whose condition is met goes to the partner. -/
theorem branch_jumps {s : State} {f : Byte → Bool} {j : Nat} (hcell : CellExists s) (hf : f s.cell = true)
    (hj : JumpTable.target s.jt s.ip = some j) : s.branchIf f = .next { s with ip := j } := by
  rw [branch_taken (cellInRange_of hcell) hf, State.jumpToPartner, hj]
  rfl

/-- On a cell that exists, a conditional jump whose condition is not met goes on. -/
theorem branch_goesOn {s : State} {f : Byte → Bool} (hcell : CellExists s) (hf : f s.cell = false) :
    s.branchIf f = .next { s with ip := s.ip + 1 } := by
  rw [branch_eq, onCell_true (cellInRange_of hcell), hf]
  rfl

/-- The one condition (R42) on a cell that is 0. -/
theorem cellIsZero_of_eq {v : Byte} (h : v = 0) : cellIsZero v = true := decide_eq_true h

/-- The one condition (R42) on a cell that is not 0. -/
theorem cellIsZero_of_ne {v : Byte} (h : v ≠ 0) : cellIsZero v = false := decide_eq_false h

/-- LoopOpen on a cell that is 0. -/
theorem exec_loopOpen_zero {s : State} {j : Nat} (hcell : CellExists s) (hzero : Memory.read s.tape s.dp = 0)
    (hj : JumpTable.target s.jt s.ip = some j) : exec .loopOpen s = .next { s with ip := j } :=
  (exec_loopOpen s).trans (branch_jumps hcell (cellIsZero_of_eq hzero) hj)

/-- LoopOpen on a cell that is not 0. -/
theorem exec_loopOpen_nonzero {s : State} (hcell : CellExists s) (hne : Memory.read s.tape s.dp ≠ 0) :
    exec .loopOpen s = .next { s with ip := s.ip + 1 } :=
  (exec_loopOpen s).trans (branch_goesOn hcell (cellIsZero_of_ne hne))

/-- LoopClose on a cell that is not 0. -/
theorem exec_loopClose_nonzero {s : State} {j : Nat} (hcell : CellExists s) (hne : Memory.read s.tape s.dp ≠ 0)
    (hj : JumpTable.target s.jt s.ip = some j) : exec .loopClose s = .next { s with ip := j } :=
  (exec_loopClose s).trans (branch_jumps hcell (congrArg not (cellIsZero_of_ne hne)) hj)

/-- LoopClose on a cell that is 0. -/
theorem exec_loopClose_zero {s : State} (hcell : CellExists s) (hzero : Memory.read s.tape s.dp = 0) :
    exec .loopClose s = .next { s with ip := s.ip + 1 } :=
  (exec_loopClose s).trans (branch_goesOn hcell (congrArg not (cellIsZero_of_eq hzero)))

/-- Settles O48: LoopOpen is the conditional jump on a cell that is 0. -/
theorem loopOpenSkipsOnZero : Obligations.LoopOpenSkipsOnZero :=
  fun _ hcell => ⟨fun _ => exec_loopOpen_zero hcell, exec_loopOpen_nonzero hcell⟩

/-- Settles O49: LoopClose is the conditional jump on a cell that is not 0. -/
theorem loopCloseRepeatsOnNonzero : Obligations.LoopCloseRepeatsOnNonzero :=
  fun _ hcell => ⟨fun _ => exec_loopClose_nonzero hcell, exec_loopClose_zero hcell⟩

/-- EndOfProgram is the halt of R187. -/
theorem exec_endOfProgram (s : State) : exec .endOfProgram s = .next s.halt := rfl

/-- Settles O50: the halt writes `status` alone. -/
theorem endOfProgramHalts : Obligations.EndOfProgramHalts := exec_endOfProgram

/-! ### Two brackets, one after the other (R233) -/

/-- The step of an instruction that only sets `ip`. -/
theorem step_sets_ip {s : State} {t : Token} {j : Nat} (hf : Fetches s t) (ht : t ≠ .input)
    (hx : exec t.toInstr s = .next { s with ip := j }) : step s = .next { s with ip := j, steps := s.steps + 1 } := by
  have hrunning : ∀ e, ({ s with ip := j } : State).status ≠ .faulted e := by simp [hf.running]
  rw [step_engine_exec hf (mt And.left ht), hx, retire_next hrunning]
  rfl

/-- An engine that runs at one instruction runs at any other of its program, at any count below the limit. -/
theorem Fetches.placedAt {s : State} {t u : Token} {i n : Nat} (hf : Fetches s t) (hu : s.prog[i]? = some u)
    (hlim : ∀ l, s.cfg.stepLimit = some l → n < l) : Fetches { s with ip := i, steps := n } u :=
  ⟨hf.active, hf.config, hf.running, hlim, hu⟩

/-- Two instructions that only set `ip`, the first to the place of the second. -/
theorem run_two_sets_ip {s : State} {t u : Token} {i k : Nat} (hf : Fetches s t) (ht : t ≠ .input) (hu : u ≠ .input)
    (hi : s.prog[i]? = some u) (hlim : ∀ l, s.cfg.stepLimit = some l → s.steps + 1 < l)
    (hx : exec t.toInstr s = .next { s with ip := i })
    (hx' : exec u.toInstr { s with ip := i, steps := s.steps + 1 } = .next { s with ip := k, steps := s.steps + 1 }) :
    Host.Core.run core 2 s = .next { s with ip := k, steps := s.steps + 2 } :=
  calc Host.Core.run core 2 s
      _ = Host.Core.run core 1 { s with ip := i, steps := s.steps + 1 } := run_succ (step_sets_ip hf ht hx) 1
      _ = .next { s with ip := k, steps := s.steps + 2 } := run_succ (step_sets_ip (hf.placedAt hi hlim) hu hx') 0

/-- Settles O52: LoopOpen jumps to its partner, and LoopClose there goes on. -/
theorem loopOnZeroIsSkippedInTwoSteps : Obligations.LoopOnZeroIsSkippedInTwoSteps :=
  fun s i hf hcell hpartner hi hlim hzero => run_two_sets_ip hf (by decide) (by decide) hi hlim
    (exec_loopOpen_zero hcell hzero hpartner) (exec_loopClose_zero hcell hzero)

/-- Settles O53: LoopClose jumps to its partner, and LoopOpen there goes on. -/
theorem loopOnNonzeroIsReentered : Obligations.LoopOnNonzeroIsReentered :=
  fun s j hf hcell hpartner hj hlim hne => run_two_sets_ip hf (by decide) (by decide) hj hlim
    (exec_loopClose_nonzero hcell hne hpartner) (exec_loopOpen_nonzero hcell hne)

/-! ### The empty loop (R230, R290) -/

/-- One pass of the empty loop on a nonzero cell: LoopOpen goes on to LoopClose, which jumps back. -/
theorem emptyLoop_pass {s : State} (hf : Fetches s .loopOpen) (hcell : CellExists s)
    (hlim : ∀ l, s.cfg.stepLimit = some l → s.steps + 1 < l) (hclose : s.prog[s.ip + 1]? = some .loopClose)
    (hback : JumpTable.target s.jt (s.ip + 1) = some s.ip) (hne : Memory.read s.tape s.dp ≠ 0) :
    Host.Core.run core 2 s = .next { s with steps := s.steps + 2 } :=
  run_two_sets_ip hf (by decide) (by decide) hclose hlim (exec_loopOpen_nonzero hcell hne)
    (exec_loopClose_nonzero hcell hne hback)

/-- Settles O54, by induction on the passes: each starts where the one before it started, with a greater count. -/
theorem emptyLoopOnNonzeroNeverEnds : Obligations.EmptyLoopOnNonzeroNeverEnds := by
  intro s n hf hcell hnone hclose hback hne
  have hlim (m l : Nat) (hl : s.cfg.stepLimit = some l) : m < l := by simp [hnone] at hl
  induction n with
  | zero => rfl
  | succ n ih =>
    have hf' : Fetches { s with steps := s.steps + 2 * n } .loopOpen := hf.placedAt hf.fetched (hlim _)
    calc Host.Core.run core (2 * n + 2) s
        _ = Host.Core.run core 2 { s with steps := s.steps + 2 * n } := run_add _ _ _ _ ih
        _ = .next { s with steps := s.steps + 2 * (n + 1) } := emptyLoop_pass hf' hcell (hlim _) hclose hback hne

end Sys2Proof.Machine
end

