-- ==== Sys2Proof/Proofs/Exceptions.lean ====
section
/-! PROOFS. The errors and reset: where a failing stage ends its run (R253, R257), the error codes (R251), and the reset
state under the invariant (R281). -/

namespace Sys2Proof.Machine

/-! ### The first failing stage (R253, R257) -/

/-- The decode step of a carrier that does not decode: the run ends, and neither the LOADER nor the ENGINE starts. -/
theorem step_decoder_error {s : State} {e : Err} (ha : s.active = .decoder) (hc : s.cfg.wf = true)
    (hs : s.decoder = DecoderWork.start s.cfg s.carrier) (hd : decode s.cfg s.carrier = .error e) :
    step s = .next (s.finish (.runFailed e)) := by
  obtain ⟨r, k, hfail, rfl⟩ := decodeFrom_start_err hd
  rw [step_decoder ha hc, runDecoder, hs, hfail, State.afterPixel]

/-- The load step of a token sequence that does not load: the run ends, and the ENGINE does not start. -/
theorem step_loader_error {s : State} {toks : List Token} {e : Err} (ha : s.active = .loader) (hc : s.cfg.wf = true)
    (hs : s.loader = LoaderWork.start toks) (hl : load toks = .error e) :
    step s = .next (s.finish (.runFailed e)) := by
  have hfrom : loadFrom s.loader = .error e := by rw [hs]; exact hl
  rw [step_loader ha hc, runLoader, hfrom]

/-- The end of an operation forgets the working states and the active agent, whatever they were. -/
theorem finish_handedToLoader (s : State) (d : DecoderWork) (l : LoaderWork) (r : Response) :
    { s with decoder := d, active := .loader, loader := l }.finish r = s.finish r := rfl

/-- Settles O29: the decode step ends the run, or hands the tokens to the load step, which ends it. -/
theorem firstFailingStageEndsTheRun : Obligations.FirstFailingStageEndsTheRun := by
  intro s ha hc hs
  constructor
  · intro e hd
    exact step_decoder_error ha hc hs hd
  · intro toks e hd hl
    have hload := step_loader_error
      (s := { s with decoder := DecoderWork.idle, active := .loader, loader := LoaderWork.start toks }) rfl hc rfl hl
    exact ⟨_, step_decoder_ok ha hc hs hd, hload.trans (congrArg _ (finish_handedToLoader s ..))⟩

/-! ### The codes of the errors (R251) -/

/-- Settles O55: both codes by their definitions, the seven kinds in the order of the table. -/
theorem errorKindsHaveTheirCodes : Obligations.ErrorKindsHaveTheirCodes :=
  ⟨fun _ _ _ _ _ _ _ _ _ => ⟨rfl, rfl, rfl, rfl, rfl, rfl, rfl⟩, fun _ _ => ⟨rfl, rfl, rfl, rfl, rfl⟩⟩

/-! ### Reset (R281) -/

/-- The default configuration is one that the model runs with (R8). -/
theorem config_default_wf : Config.default.wf = true := by decide

/-- Settles O57: no agent is active after reset, so the clauses on an active agent ask nothing, and every working state is
idle. -/
theorem resetMeetsTheInvariant : Obligations.ResetMeetsTheInvariant where
  config := config_default_wf
  carrier := rfl
  tape := Memory.wf_nil
  engine := nofun
  encoderStart := nofun
  encoderIdle := fun _ => rfl
  decoderStart := nofun
  decoderIdle := fun _ => rfl
  loaderStart := nofun
  loaderIdle := fun _ => rfl

end Sys2Proof.Machine
end
